-- ==== Sys2Proof/Word.lean ====
section
/-! DEFINITION. The two widths of the machine (spec R10): the byte and the 16-bit word. -/

namespace Sys2Proof

/-- A byte, an unsigned 8-bit value 0..255 (R10). -/
abbrev Byte := BitVec 8

/-- A word, the 16-bit pattern of a register (R10, R12). -/
abbrev Word := BitVec 16

end Sys2Proof
end

