-- ==== Sys2Proof/Machine/Bits.lean ====
section
/-! DEFINITION. Conversions between patterns and integers (R11), the wrapping arithmetic of R114 and the
little-endian codec of R45. -/

namespace Sys2Proof.Machine

/-- R11: `wrap16(z) = z mod 65536`. -/
def wrap16 (z : Int) : Word := BitVec.ofNat 16 (z % 65536).toNat

/-- R11: the two's-complement reading of a 16-bit pattern. -/
def sint16 (u : Word) : Int := if u.toNat < 32768 then u.toNat else (u.toNat : Int) - 65536

/-- R11: zero extension; no instruction uses it. -/
def zextN {w : Nat} (n : Nat) (v : BitVec w) : BitVec n := v.zeroExtend n

/-- R11: sign extension; no instruction uses it. -/
def sextN {w : Nat} (n : Nat) (v : BitVec w) : BitVec n := v.signExtend n

/-- R11: the low byte of a pattern. -/
def lo8 (v : Word) : Byte := BitVec.ofNat 8 (v.toNat % 256)

/-- R11: the high byte of a pattern. -/
def hi8 (v : Word) : Byte := BitVec.ofNat 8 (v.toNat / 256)

/-- R45, decode: `low_byte | (high_byte << 8)`. -/
def ofLoHi (lo hi : Byte) : Word := BitVec.ofNat 16 (lo.toNat + 256 * hi.toNat)

/-- R45, encode: the low byte, then the high byte, of a 16-bit value. -/
def encodeLE (v : Int) : List Byte := [lo8 (wrap16 v), hi8 (wrap16 v)]

/-- R45, decode of two bytes, read as signed. -/
def decodeLE (lo hi : Byte) : Int := sint16 (ofLoHi lo hi)

/-! The sums and differences of R114, computed on integers and wrapped. -/

/-- R110, R114. -/
def wrapAdd (x y : Word) : Word := wrap16 ((x.toNat : Int) + (y.toNat : Int))

/-- R111, R114. -/
def wrapSub (x y : Word) : Word := wrap16 ((x.toNat : Int) - (y.toNat : Int))

/-- R112, R114. -/
def wrapInc (x : Word) : Word := wrap16 ((x.toNat : Int) + 1)

/-- R113, R114. -/
def wrapDec (x : Word) : Word := wrap16 ((x.toNat : Int) - 1)

end Sys2Proof.Machine
end

