-- ==== Sys2Proof/Config.lean ====
section
/-! DEFINITION. The parameters of the engine (spec R8) and the free values of the model.
A configuration is fixed for a run; `State` carries it in one field that no step changes (log 5). -/

namespace Sys2Proof

/-- The ten mnemonics, a closed enumeration (R2, R66). -/
inductive Mnemonic where
  | LOAD | STORE | ADD | SUB | ADDI | SUBI | JUMP | BEQ | BEQZ | HALT
  deriving DecidableEq, Repr

/-- The parameter `opcodeByte` (R8, R64): one byte for each mnemonic, as plain data. -/
structure OpcodeMap where
  load  : Byte
  store : Byte
  add   : Byte
  sub   : Byte
  addi  : Byte
  subi  : Byte
  jump  : Byte
  beq   : Byte
  beqz  : Byte
  halt  : Byte
  deriving DecidableEq, Repr

/-- The parameter `REG0_MODE` (R8, R25): what a register operand equal to 0 does. -/
inductive Reg0Mode where
  /-- An operand 0 raises `InvalidRegisterIndex`. -/
  | fault
  /-- An operand 0 names the pc (R89, R90). -/
  | aliasPc
  deriving DecidableEq, Repr

/-- The implementation parameters of R8. -/
structure Config where
  /-- `MEM_SIZE`, N: the length of the Memory Buffer in bytes. -/
  memSize   : Nat
  /-- `NUM_REGS`, K: the number of registers, x[0] = pc included. -/
  numRegs   : Nat
  /-- `opcodeByte`. -/
  opcodes   : OpcodeMap
  /-- `REG0_MODE`. -/
  reg0Mode  : Reg0Mode
  /-- `STEP_LIMIT`: an optional ceiling on completed instructions. -/
  stepLimit : Option Nat
  deriving DecidableEq, Repr

/-- FREE VALUE: what `ERR_KIND` reads as while `STATUS` is not `Error`, beyond its reset value
(R32, U14; log 11). It is applied to the step counter. -/
opaque Config.freeErrKind : Nat → BitVec 3

/-- FREE VALUE: what `ERR_PC` reads as while `STATUS` is not `Error`, beyond its reset value
(R33, U14; log 11). It is applied to the step counter. -/
opaque Config.freeErrPc : Nat → Word

end Sys2Proof
end

