-- ==== Sys2Proof/Syntax.lean ====
section
/-! DEFINITION. The instruction set: one constructor per row of spec/opcode_table.json (R2, R61).
Every operand is one whole byte (R62, R63): a register index or an absolute byte address. -/

namespace Sys2Proof

/-- The ten instructions, operands in the order of the encoding (R61). -/
inductive Instr where
  /-- LOAD rR, A (format RA, R100). -/
  | load  (reg addr : Byte)
  /-- STORE rR, A (format RA, R101). -/
  | store (reg addr : Byte)
  /-- ADD rD, rS (format RR, R110); `reg1` is the destination. -/
  | add   (reg1 reg2 : Byte)
  /-- SUB rD, rS (format RR, R111); `reg1` is the destination. -/
  | sub   (reg1 reg2 : Byte)
  /-- ADDI rR (format R, R112). -/
  | addi  (reg : Byte)
  /-- SUBI rR (format R, R113). -/
  | subi  (reg : Byte)
  /-- JUMP A (format A, R120). -/
  | jump  (addr : Byte)
  /-- BEQ rA, rB, A (format RRA, R121). -/
  | beq   (reg1 reg2 addr : Byte)
  /-- BEQZ A (format A, R122); the tested register is x[1], not encoded. -/
  | beqz  (addr : Byte)
  /-- HALT (format N, R130). -/
  | halt
  deriving DecidableEq, Repr

end Sys2Proof
end

