-- ==== Sys2Proof/Decode.lean ====
section
/-! DEFINITION. The opcode map, the decoder and the encoder (spec/30_encoding.md), and the validity of
a register operand (R25). Decoding depends on the bytes and the parameter `opcodeByte` alone (R69). -/

namespace Sys2Proof

/-! ### Opcodes and widths -/

/-- The mnemonics in the order of the opcode table. -/
def Mnemonic.all : List Mnemonic :=
  [.LOAD, .STORE, .ADD, .SUB, .ADDI, .SUBI, .JUMP, .BEQ, .BEQZ, .HALT]

/-- The width in bytes, the opcode byte included (R65). -/
def Mnemonic.width : Mnemonic → Nat
  | .LOAD  => 3
  | .STORE => 3
  | .ADD   => 3
  | .SUB   => 3
  | .ADDI  => 2
  | .SUBI  => 2
  | .JUMP  => 2
  | .BEQ   => 4
  | .BEQZ  => 2
  | .HALT  => 1

/-- The longest instruction, in bytes (R65: BEQ). -/
def maxWidth : Nat := 4

/-- `opcodeByte(m)` (R64). -/
def OpcodeMap.byte (om : OpcodeMap) : Mnemonic → Byte
  | .LOAD  => om.load
  | .STORE => om.store
  | .ADD   => om.add
  | .SUB   => om.sub
  | .ADDI  => om.addi
  | .SUBI  => om.subi
  | .JUMP  => om.jump
  | .BEQ   => om.beq
  | .BEQZ  => om.beqz
  | .HALT  => om.halt

/-- R8: the map is injective, no two mnemonics share a byte. -/
def OpcodeMap.injective (om : OpcodeMap) : Bool :=
  decide (Mnemonic.all.map om.byte).Nodup

/-- The default assignment of R64, the one opcode_table.json numbers by.
DESIGN CHOICE (log 1): the spec leaves the bytes open and gives these as its default. -/
def OpcodeMap.standard : OpcodeMap where
  load  := 0x01
  store := 0x02
  add   := 0x03
  sub   := 0x04
  addi  := 0x05
  subi  := 0x06
  jump  := 0x07
  beq   := 0x08
  beqz  := 0x09
  halt  := 0x0A

/-- The configuration of `State.reset`: the largest legal N and K (DESIGN CHOICE, log 2 and 3), and the
spec's defaults for the other parameters (log 1 and 4). -/
def Config.standard : Config where
  memSize   := 256
  numRegs   := 256
  opcodes   := .standard
  reg0Mode  := .fault
  stepLimit := none

/-- R66: `decode : byte -> Option Mnemonic`, total. -/
def OpcodeMap.decodeOpcode (om : OpcodeMap) (b : Byte) : Option Mnemonic :=
  Mnemonic.all.find? fun m => om.byte m == b

/-! ### Register operands -/

/-- R25: whether a register operand byte is valid. -/
def Config.validReg (c : Config) (r : Byte) : Bool :=
  match c.reg0Mode with
  | .fault   => decide (1 ≤ r.toNat ∧ r.toNat < c.numRegs)
  | .aliasPc => decide (r.toNat < c.numRegs)

/-- The register operands of an instruction, in operand order (R142). -/
def Instr.regOperands : Instr → List Byte
  | .load r _    => [r]
  | .store r _   => [r]
  | .add r1 r2   => [r1, r2]
  | .sub r1 r2   => [r1, r2]
  | .addi r      => [r]
  | .subi r      => [r]
  | .jump _      => []
  | .beq r1 r2 _ => [r1, r2]
  | .beqz _      => []
  | .halt        => []

/-! ### Decoding -/

/-- Why bytes do not decode. -/
inductive DecodeError where
  /-- There is no opcode byte. -/
  | noOpcode
  /-- The opcode byte matches no entry of the table (R67). -/
  | unknownOpcode (b : Byte)
  /-- The bytes end before the instruction does (R67). -/
  | truncated (m : Mnemonic)
  deriving DecidableEq, Repr

/-- R61, R62: the operand bytes of `m`, one byte each, in the order of the encoding. The answer is the
instruction and the bytes after it, or nothing when there are too few bytes. -/
def decodeOperands : Mnemonic → List Byte → Option (Instr × List Byte)
  | .LOAD,  r :: a :: rest      => some (.load r a, rest)
  | .STORE, r :: a :: rest      => some (.store r a, rest)
  | .ADD,   r1 :: r2 :: rest    => some (.add r1 r2, rest)
  | .SUB,   r1 :: r2 :: rest    => some (.sub r1 r2, rest)
  | .ADDI,  r :: rest           => some (.addi r, rest)
  | .SUBI,  r :: rest           => some (.subi r, rest)
  | .JUMP,  a :: rest           => some (.jump a, rest)
  | .BEQ,   r1 :: r2 :: a :: rest => some (.beq r1 r2 a, rest)
  | .BEQZ,  a :: rest           => some (.beqz a, rest)
  | .HALT,  rest                => some (.halt, rest)
  | _,      _                   => none

/-- The decoder, total on any bytes (R66, R69): the opcode byte first, then exactly as many operand
bytes as the opcode asks for. The answer is the instruction and the bytes after it. -/
def decode (om : OpcodeMap) : List Byte → Except DecodeError (Instr × List Byte)
  | [] => .error .noOpcode
  | op :: rest =>
    match om.decodeOpcode op with
    | none => .error (.unknownOpcode op)
    | some m =>
      match decodeOperands m rest with
      | none => .error (.truncated m)
      | some (i, tail) => .ok (i, tail)

/-! ### Encoding -/

/-- The mnemonic of an instruction. -/
def Instr.mnemonic : Instr → Mnemonic
  | .load _ _  => .LOAD
  | .store _ _ => .STORE
  | .add _ _   => .ADD
  | .sub _ _   => .SUB
  | .addi _    => .ADDI
  | .subi _    => .SUBI
  | .jump _    => .JUMP
  | .beq _ _ _ => .BEQ
  | .beqz _    => .BEQZ
  | .halt      => .HALT

/-- The width of an instruction in bytes (R65). -/
def Instr.width (i : Instr) : Nat := i.mnemonic.width

/-- The operand bytes of an instruction, in the order of R61. -/
def Instr.operands : Instr → List Byte
  | .load r a    => [r, a]
  | .store r a   => [r, a]
  | .add r1 r2   => [r1, r2]
  | .sub r1 r2   => [r1, r2]
  | .addi r      => [r]
  | .subi r      => [r]
  | .jump a      => [a]
  | .beq r1 r2 a => [r1, r2, a]
  | .beqz a      => [a]
  | .halt        => []

/-- The bytes of an instruction, lowest address first (R60, R61). -/
def encode (om : OpcodeMap) (i : Instr) : List Byte :=
  om.byte i.mnemonic :: i.operands

/-! ### The host's numbering of an instruction -/

/-- The bytes of the number `w`, least significant first, `n` of them. -/
def numberBytes : Nat → Nat → List Byte
  | 0,     _ => []
  | n + 1, w => BitVec.ofNat 8 (w % 256) :: numberBytes n (w / 256)

/-- The bytes in memory of an instruction whose bits are `w`, numbered as opcode_table.json numbers
them: bit 0 is the least significant bit of the first byte, and every bit from `nbits` up is 0. -/
def tableBytes (nbits w : Nat) : List Byte := numberBytes maxWidth (w % 2 ^ nbits)

/-- What the decoder reads from those bytes under the default opcode map. -/
def decodeTableWord (nbits w : Nat) : Option Instr :=
  match decode .standard (tableBytes nbits w) with
  | .ok (i, _) => some i
  | .error _   => none

end Sys2Proof
end

