-- ==== Sys2Proof/Machine/State.lean ====
section
/-! DEFINITION. The state of the engine (spec/10_state.md, R20): plain data, and the state after reset. -/

namespace Sys2Proof.Machine

/-- The Memory Buffer (R37) in canonical form: addresses strictly rising, no entry equal to what an
unlisted address reads as (log 6). -/
abbrev Memory := List Host.Cell

/-- The error kinds of R140. -/
inductive ErrorKind where
  | outOfBoundsAccess
  | invalidRegisterIndex
  | unknownOpcode
  | stepLimitExceeded
  deriving DecidableEq, Repr

/-- The run status of R20 and R31, with the record of an error (R32, R33, R145). -/
inductive RunStatus where
  | running
  | halted
  | error (kind : ErrorKind) (errPc : Word)
  deriving DecidableEq, Repr

/-- The state tuple `(MEM, x, status, steps)` of R20, beside the configuration of the run (log 5). -/
structure State where
  /-- The parameters of R8; no step changes them. -/
  cfg    : Config
  /-- `x[0..K-1]`, x[0] = pc (R21, R22). -/
  regs   : List Word
  /-- `MEM[0..N-1]` (R37). -/
  mem    : Memory
  /-- `status` (R31): STATUS, ERR_KIND and ERR_PC in one. -/
  status : RunStatus
  /-- `steps`, the count of completed instructions (R34). -/
  steps  : Nat
  deriving DecidableEq, Repr

/-- Why the machine stops. An error of R140 is NOT here: it is a next state (log 10). -/
inductive Fault where
  /-- Raised by `step` on a final state, `Halted` or `Error`: "no step applies to it" (R88; log 9).
  Safe: the model stops where the spec has no step. -/
  | runEnded
  deriving DecidableEq, Repr

/-- What the model gives no meaning. -/
inductive Refusal where
  /-- Raised by an arm of `exec` for an instruction that has no meaning yet. Safe. No arm raises it now. -/
  | notModelled (mnemonic : String)
  /-- Raised by `step` when the parameters are outside the legal values of R8: "The spec gives no meaning
  to such a configuration" (R9; log 8). Safe. -/
  | illegalConfiguration
  deriving DecidableEq, Repr

/-- R160: the state at the start of a run with configuration `c` on the buffer `mem`. Registers are zero,
so pc = 0 is the entry point (R161); the buffer is not written. -/
def State.startRun (c : Config) (mem : Memory) : State where
  cfg    := c
  regs   := List.replicate c.numRegs 0
  mem    := mem
  status := .running
  steps  := 0

/-- The machine right after reset, with the configuration of log 1 to 4 and the all-zero buffer of log 6. -/
def State.reset : State := .startRun .standard []

end Sys2Proof.Machine
end

