-- ==== Sys2Proof/Machine/Ops.lean ====
section
/-! DEFINITION. The named operations over memory, registers, pc and status, and the taking of an error
(spec R12 to R14, R43, R44, R82, R145). -/

namespace Sys2Proof.Machine

/-! ### The Memory Buffer as a list of cells -/

/-- What an address that is not listed reads as. DESIGN CHOICE, unsafe for claims about reset's
bytes (log 6): a buffer always holds N bytes
(R37), and 0x00 is the one the list leaves out. -/
def Memory.unlisted : Byte := 0

/-- `MEM[a]` (R13). -/
def Memory.read : Memory → Nat → Byte
  | [], _ => Memory.unlisted
  | (b, v) :: rest, a => if a = b then v else Memory.read rest a

/-- `MEM[a] <- v`, keeping the canonical form. -/
def Memory.write : Memory → Nat → Byte → Memory
  | [], a, v => if v = Memory.unlisted then [] else [(a, v)]
  | (b, w) :: rest, a, v =>
    if a < b then
      if v = Memory.unlisted then (b, w) :: rest else (a, v) :: (b, w) :: rest
    else if a = b then
      if v = Memory.unlisted then rest else (a, v) :: rest
    else (b, w) :: Memory.write rest a v

/-- Every listed address is at least `lo` and below `n`, the addresses rise strictly, and no listed byte
is what an unlisted address reads as. -/
def Memory.wfFrom (lo n : Nat) : Memory → Bool
  | [] => true
  | (a, v) :: rest =>
    decide (lo ≤ a) && decide (a < n) && decide (v ≠ Memory.unlisted) && Memory.wfFrom (a + 1) n rest

/-- The canonical form of a buffer of `n` bytes. -/
def Memory.wf (n : Nat) (m : Memory) : Bool := Memory.wfFrom 0 n m

/-- `Σ_{i<n} MEM[a+i] * 256^i` (R13, R43). -/
def Memory.readLE (m : Memory) (a : Nat) : Nat → Nat
  | 0 => 0
  | n + 1 => (m.read a).toNat + 256 * Memory.readLE m (a + 1) n

/-- `MEM[a+i] <- (v >> 8i) & 0xFF` for i < n, low byte first (R13, R44; DEDUCED, safe: log 19). -/
def Memory.writeLE (m : Memory) (a : Nat) : Nat → Nat → Memory
  | 0, _ => m
  | n + 1, v => Memory.writeLE (m.write a (BitVec.ofNat 8 (v % 256))) (a + 1) n (v / 256)

/-- The bytes at a .. a+n-1. -/
def Memory.slice (m : Memory) (a : Nat) : Nat → List Byte
  | 0 => []
  | n + 1 => m.read a :: Memory.slice m (a + 1) n

/-- Writes the bytes from address `a` up, those that lie below `n`. -/
def Memory.putBytes (n : Nat) (m : Memory) (a : Nat) : List Byte → Memory
  | [] => m
  | b :: bs => Memory.putBytes n (if a < n then m.write a b else m) (a + 1) bs

/-! ### Accessors of State -/

/-- N, the length of the buffer. -/
def State.memSize (s : State) : Nat := s.cfg.memSize

/-- `MEM[a]` (R13). -/
def State.byteAt (s : State) (a : Nat) : Byte := s.mem.read a

/-- `x[i]` (R12). An index past the register list reads as 0; no checked operand is one
(DESIGN CHOICE, safe: log 13). -/
def State.reg (s : State) (i : Nat) : Word := s.regs.getD i 0

/-- `pc` is a name for x[0] (R12, R22). -/
def State.pc (s : State) : Word := s.reg 0

/-- The instruction address p of a step: `sint16(x[0])` (R81 step (2)), in both modes (DEDUCED, safe:
log 20). -/
def State.instrAddr (s : State) : Int := sint16 s.pc

/-- `x[i] <- v` (R12). -/
def State.setReg (s : State) (i : Nat) (v : Word) : State := { s with regs := s.regs.set i v }

/-- `pc <- v` (R12). -/
def State.setPc (s : State) (v : Word) : State := s.setReg 0 v

/-- Replaces the buffer's contents. -/
def State.setMem (s : State) (m : Memory) : State := { s with mem := m }

/-- Replaces the run status (R31). -/
def State.setStatus (s : State) (st : RunStatus) : State := { s with status := st }

/-- R81 step (7): `steps <- steps + 1`. -/
def State.countStep (s : State) : State := { s with steps := s.steps + 1 }

/-- R82, R90: `pc <- wrap16(x[0] + w)`, applied to x[0] as the operation left it
(DEDUCED, safe: log 17). -/
def State.advance (s : State) (w : Nat) : State := s.setPc (wrap16 ((s.pc.toNat : Int) + w))

/-! ### Memory access with its bounds check -/

/-- R43: `MemRead(a, n)`. -/
def State.memRead (s : State) (a : Int) (n : Nat) : Except ErrorKind Nat :=
  if a < 0 ∨ a + n > s.memSize then .error .outOfBoundsAccess
  else .ok (s.mem.readLE a.toNat n)

/-- R44: `MemWrite(a, n, v)`; the check covers the whole access and comes before any byte is written. -/
def State.memWrite (s : State) (a : Int) (n : Nat) (v : Word) : Except ErrorKind State :=
  if a < 0 ∨ a + n > s.memSize then .error .outOfBoundsAccess
  else .ok (s.setMem (s.mem.writeLE a.toNat n v.toNat))

/-- R13: `Fetch8(a)` is `MemRead(a, 1)`. -/
def State.fetch8 (s : State) (a : Int) : Except ErrorKind Byte :=
  (s.memRead a 1).map (BitVec.ofNat 8)

/-! ### Errors -/

/-- R14, R145: taking an error, the one operation for all four kinds. It records the kind and the pc of
the step, and changes nothing else (R146). There is no handler, and nothing returns from an error (R147,
R148): the host's only way on is a new run (`State.restart`). -/
def State.raise (s : State) (k : ErrorKind) : State := s.setStatus (.error k s.pc)

/-- The end of a step whose operation answered `r` (R81 steps (6) and (7)): an error is raised on the
state before the operation, a result is counted. -/
def State.finish (s : State) (r : Except ErrorKind State) : Host.Outcome State Fault Refusal :=
  match r with
  | .error k => .next (s.raise k)
  | .ok t    => .next t.countStep

end Sys2Proof.Machine
end

