-- ==== Sys2Proof/Machine/Operands.lean ====
section
/-! DEFINITION. The operand forms (R61 to R63): register operands, checked in operand order before the
operation (R81 step (5)), and absolute address operands (R102, R123). -/

namespace Sys2Proof.Machine

/-- R81 step (5): the register operands, in operand order; the first that is not valid raises. -/
def State.checkRegs (s : State) : List Byte → Except ErrorKind Unit
  | [] => .ok ()
  | r :: rs => if s.cfg.validReg r then s.checkRegs rs else .error .invalidRegisterIndex

/-- Reads the register a valid operand names (R63). Under `AliasPc` an operand 0 reads p (R89). -/
def State.readReg (s : State) (r : Byte) : Word := s.reg r.toNat

/-- Writes the register a valid operand names (R63). Under `AliasPc` an operand 0 writes x[0] (R90). -/
def State.writeReg (s : State) (r : Byte) (v : Word) : State := s.setReg r.toNat v

/-- R102: the effective address of LOAD and STORE is the address operand itself. -/
def effAddr (a : Byte) : Nat := a.toNat

/-- R123: the target of a jump or branch is the address operand itself. -/
def targetPc (a : Byte) : Word := BitVec.ofNat 16 a.toNat

/-- R83: a taken transfer replaces the pc, a transfer not taken advances it by the width. -/
def State.transfer (s : State) (taken : Bool) (a : Byte) (w : Nat) : State :=
  if taken then s.setPc (targetPc a) else s.advance w

/-- R81 steps (5) to (7), shared by every instruction: check the register operands `rs`, then run the
operation on the state before it, then count. -/
def State.execute (s : State) (rs : List Byte) (op : State → Except ErrorKind State) :
    Host.Outcome State Fault Refusal :=
  match s.checkRegs rs with
  | .error k => .next (s.raise k)
  | .ok ()   => s.finish (op s)

end Sys2Proof.Machine
end

