-- ==== Sys2Proof/Machine/Arithmetic.lean ====
section
/-! DEFINITION. ADD, SUB, ADDI and SUBI (spec/42_arithmetic.md). Both operands are read before the write
(R116); nothing traps and no flag is written (R114, R29). -/

namespace Sys2Proof.Machine

/-- R110. ADD reg1, reg2: `x[reg1] <- wrap16(x[reg1] + x[reg2])`, then `pc <- p + 3`. -/
def execAdd (reg1 reg2 : Byte) (s : State) : Host.Outcome State Fault Refusal :=
  s.execute [reg1, reg2] fun s =>
    .ok ((s.writeReg reg1 (wrapAdd (s.readReg reg1) (s.readReg reg2))).advance 3)

/-- R111. SUB reg1, reg2: `x[reg1] <- wrap16(x[reg1] - x[reg2])`, then `pc <- p + 3`. -/
def execSub (reg1 reg2 : Byte) (s : State) : Host.Outcome State Fault Refusal :=
  s.execute [reg1, reg2] fun s =>
    .ok ((s.writeReg reg1 (wrapSub (s.readReg reg1) (s.readReg reg2))).advance 3)

/-- R112. ADDI reg: `x[reg] <- wrap16(x[reg] + 1)`, then `pc <- p + 2`. -/
def execAddi (reg : Byte) (s : State) : Host.Outcome State Fault Refusal :=
  s.execute [reg] fun s => .ok ((s.writeReg reg (wrapInc (s.readReg reg))).advance 2)

/-- R113. SUBI reg: `x[reg] <- wrap16(x[reg] - 1)`, then `pc <- p + 2`. -/
def execSubi (reg : Byte) (s : State) : Host.Outcome State Fault Refusal :=
  s.execute [reg] fun s => .ok ((s.writeReg reg (wrapDec (s.readReg reg))).advance 2)

end Sys2Proof.Machine
end

