-- ==== Sys2Proof/Machine/Flags.lean ====
section
/-! DEFINITION. The engine has no flags (R29): no operation here writes one. The conditions of the two
branches are computed from register values directly. -/

namespace Sys2Proof.Machine

/-- R121: equality of the 16-bit patterns (R12). -/
def condEqual (x y : Word) : Bool := x == y

/-- R122: the zero test. -/
def condZero (x : Word) : Bool := x == 0

end Sys2Proof.Machine
end

