-- ==== Sys2Proof/Machine/ControlTransfer.lean ====
section
/-! DEFINITION. JUMP, BEQ and BEQZ (spec/43_control_transfer.md). No transfer checks its target: the next
fetch does (R123). -/

namespace Sys2Proof.Machine

/-- R120. JUMP addr: `pc <- addr`. -/
def execJump (addr : Byte) (s : State) : Host.Outcome State Fault Refusal :=
  s.execute [] fun s => .ok (s.transfer true addr 2)

/-- R121. BEQ reg1, reg2, addr: `pc <- addr` if x[reg1] = x[reg2], else `pc <- p + 4`. -/
def execBeq (reg1 reg2 addr : Byte) (s : State) : Host.Outcome State Fault Refusal :=
  s.execute [reg1, reg2] fun s =>
    .ok (s.transfer (condEqual (s.readReg reg1) (s.readReg reg2)) addr 4)

/-- R122. BEQZ addr: `pc <- addr` if x[1] = 0, else `pc <- p + 2`. The register is hard-wired (R24). -/
def execBeqz (addr : Byte) (s : State) : Host.Outcome State Fault Refusal :=
  s.execute [] fun s => .ok (s.transfer (condZero (s.reg 1)) addr 2)

end Sys2Proof.Machine
end

