-- ==== Sys2Proof/Machine/DataTransfer.lean ====
section
/-! DEFINITION. LOAD and STORE (spec/41_data_transfer.md). -/

namespace Sys2Proof.Machine

/-- R100. LOAD reg, addr: `x[reg] <- MemRead(addr, 2)`, then `pc <- p + 3`. -/
def execLoad (reg addr : Byte) (s : State) : Host.Outcome State Fault Refusal :=
  s.execute [reg] fun s =>
    match s.memRead (effAddr addr) 2 with
    | .error k => .error k
    | .ok v    => .ok ((s.writeReg reg (wrap16 v)).advance 3)

/-- R101. STORE reg, addr: `MemWrite(addr, 2, x[reg])`, then `pc <- p + 3`. -/
def execStore (reg addr : Byte) (s : State) : Host.Outcome State Fault Refusal :=
  s.execute [reg] fun s =>
    match s.memWrite (effAddr addr) 2 (s.readReg reg) with
    | .error k => .error k
    | .ok t    => .ok (t.advance 3)

end Sys2Proof.Machine
end

