-- ==== Sys2Proof/Machine/Halt.lean ====
section
/-! DEFINITION. HALT (spec/44_halt.md). -/

namespace Sys2Proof.Machine

/-- R130. HALT: `status <- Halted`; the pc is left at the HALT (C2), and the step is counted. -/
def execHalt (s : State) : Host.Outcome State Fault Refusal :=
  s.execute [] fun s => .ok (s.setStatus .halted)

end Sys2Proof.Machine
end

