-- ==== Sys2Proof/Machine/Dispatch.lean ====
section
/-! DEFINITION. One arm per instruction: R81 steps (5) to (7) for a decoded instruction (DESIGN CHOICE,
safe: log 14). -/

namespace Sys2Proof.Machine

def exec (i : Instr) (s : State) : Host.Outcome State Fault Refusal :=
  match i with
  | .load reg addr => Sys2Proof.Machine.execLoad reg addr s
  | .store reg addr => Sys2Proof.Machine.execStore reg addr s
  | .add reg1 reg2 => Sys2Proof.Machine.execAdd reg1 reg2 s
  | .sub reg1 reg2 => Sys2Proof.Machine.execSub reg1 reg2 s
  | .addi reg => Sys2Proof.Machine.execAddi reg s
  | .subi reg => Sys2Proof.Machine.execSubi reg s
  | .jump addr => Sys2Proof.Machine.execJump addr s
  | .beq reg1 reg2 addr => Sys2Proof.Machine.execBeq reg1 reg2 addr s
  | .beqz addr => Sys2Proof.Machine.execBeqz addr s
  | .halt => Sys2Proof.Machine.execHalt s

end Sys2Proof.Machine
end

