-- ==== Sys2Proof/Machine/Fetch.lean ====
section
/-! DEFINITION. R81 steps (1) to (4): the step budget, the opcode fetch, the decode and the operand fetch,
in that order. The first check that fails is the one reported (R149). -/

namespace Sys2Proof.Machine

/-- R81 step (1): `STEP_LIMIT = some L` and `steps >= L`. -/
def State.budgetSpent (s : State) : Bool :=
  match s.cfg.stepLimit with
  | none   => false
  | some l => decide (l ≤ s.steps)

/-- R81 step (4), for the instruction `m` at `p`: the whole instruction must lie in the buffer, then its
operand bytes are read once (R85) and split into operands. The last arm cannot be reached: `m.width - 1`
bytes are always enough (DEDUCED, safe: log 18). -/
def State.fetchOperands (s : State) (p : Int) (m : Mnemonic) : Except ErrorKind Instr :=
  if p + m.width > s.memSize then .error .outOfBoundsAccess
  else
    match decodeOperands m (s.mem.slice (p.toNat + 1) (m.width - 1)) with
    | some (i, _) => .ok i
    | none        => .error .outOfBoundsAccess

/-- R81 steps (1) to (4). -/
def State.fetch (s : State) : Except ErrorKind Instr :=
  if s.budgetSpent then .error .stepLimitExceeded
  else
    match s.fetch8 s.instrAddr with
    | .error k => .error k
    | .ok op =>
      match s.cfg.opcodes.decodeOpcode op with
      | none   => .error .unknownOpcode
      | some m => s.fetchOperands s.instrAddr m

end Sys2Proof.Machine
end

