-- ==== Sys2Proof/WellFormed.lean ====
section
/-! DEFINITION. Well-formedness: which parameter sets have a meaning (R8, R9), and which instructions are
legal encodings under one (R25, R67). -/

namespace Sys2Proof

/-- R8, R9: a parameter set with a meaning. -/
def Config.legal (c : Config) : Bool :=
  decide (1 ≤ c.memSize ∧ c.memSize ≤ 256) && decide (2 ≤ c.numRegs ∧ c.numRegs ≤ 256) &&
    c.opcodes.injective

/-- R67: every register operand of the instruction is valid. Every address byte is legal. An ill-formed
instruction still decodes, and executing it raises `InvalidRegisterIndex` (R142). -/
def Instr.wellFormed (c : Config) (i : Instr) : Bool := i.regOperands.all c.validReg

end Sys2Proof
end

