-- ==== Sys2Proof/Machine/Step.lean ====
section
/-! DEFINITION. One step of a run (R80, R81). -/

namespace Sys2Proof.Machine

/-- R81. An illegal configuration is refused (R9; DEDUCED, safe: log 8); no step applies to a final state
(R88; DEDUCED, safe: log 9); an error of the fetch is raised at p; otherwise the fetched instruction is executed. -/
def step (s : State) : Host.Outcome State Fault Refusal :=
  if s.cfg.legal then
    match s.status with
    | .running =>
      match s.fetch with
      | .error k => .next (s.raise k)
      | .ok i    => exec i s
    | .halted => .fault .runEnded
    | .error _ _ => .fault .runEnded
  else .refused .illegalConfiguration

/-- `s` with the instruction whose bits are `w` stored at the pc, where `step` fetches next; bytes past the
end of the buffer are dropped (DESIGN CHOICE, safe: log 7). -/
def State.withFetchWord (s : State) (nbits w : Nat) : State :=
  s.setMem (s.mem.putBytes s.memSize s.pc.toNat (tableBytes nbits w))

end Sys2Proof.Machine
end

