-- ==== Sys2Proof/Machine/HostInterface.lean ====
section
/-! DEFINITION. The host's side of the block (R19, R156, R163): starting a run, the result registers
(R30 to R34), and the slots of the buffer's tail (R51). -/

namespace Sys2Proof.Machine

/-! ### Starting a run -/

/-- The buffer with these bytes from address 0. -/
def Memory.ofBytes (bs : List Byte) : Memory := Memory.putBytes bs.length [] 0 bs

/-- R9, R163: a run starts with a legal configuration and a buffer of exactly N bytes, and only then. -/
def State.startBuffer (c : Config) (buffer : List Byte) : Option State :=
  if c.legal ∧ buffer.length = c.memSize then some (.startRun c (Memory.ofBytes buffer)) else none

/-- R148, R160: a new run of the same engine on the buffer as the last run left it. -/
def State.restart (s : State) : State := .startRun s.cfg s.mem

/-! ### The result registers -/

/-- The numeric code of an error kind (R140). -/
def ErrorKind.code : ErrorKind → BitVec 3
  | .outOfBoundsAccess    => 1
  | .invalidRegisterIndex => 2
  | .unknownOpcode        => 3
  | .stepLimitExceeded    => 4

/-- STATUS (R31). -/
def State.statusReg (s : State) : BitVec 3 :=
  match s.status with
  | .running   => 0
  | .halted    => 1
  | .error _ _ => 2

/-- Whether nothing has happened since reset: a run in progress with no completed instruction (R160). -/
def State.justReset (s : State) : Bool := decide (s.status = .running ∧ s.steps = 0)

/-- ERR_KIND (R32): the code of the error when STATUS is `Error`; 0 right after reset; otherwise
unspecified, a free value (log 11). -/
def State.errKindReg (s : State) : BitVec 3 :=
  match s.status with
  | .error k _ => k.code
  | _          => if s.justReset then 0 else Config.freeErrKind s.steps

/-- ERR_PC (R33): the offending pc when STATUS is `Error`; 0 right after reset; otherwise unspecified, a
free value (log 11). -/
def State.errPcReg (s : State) : Word :=
  match s.status with
  | .error _ p => p
  | _          => if s.justReset then 0 else Config.freeErrPc s.steps

/-- STEPS (R34). -/
def State.stepsReg (s : State) : Nat := s.steps

/-! ### Slots (a convention; below N = 6 the addresses stop at 0; DEDUCED, safe: log 21) -/

/-- R51: the output slot's conventional address. -/
def outputSlot (n : Nat) : Nat := n - 6

/-- R51: the conventional address of the first input slot. -/
def inputSlot1 (n : Nat) : Nat := n - 4

/-- R51: the conventional address of the second input slot. -/
def inputSlot2 (n : Nat) : Nat := n - 2

/-- Writes a 2-byte little-endian value before a run (R45, R163). -/
def Memory.putSlot (m : Memory) (a : Nat) (v : Int) : Memory := m.writeLE a 2 (wrap16 v).toNat

/-- Reads a 2-byte little-endian value after a run, as signed (R45, R156). -/
def Memory.readSlot (m : Memory) (a : Nat) : Int := decodeLE (m.read a) (m.read (a + 1))

end Sys2Proof.Machine
end

