-- ==== Sys2Proof/Safety.lean ====
section
/-! DEFINITION. The terms claims are stated in: well-formed states and the invariant of a run, what it is
for an instruction to stand at the pc, what an instruction leaves unchanged, and how a run ends. -/

namespace Sys2Proof.Machine

/-- A state a run can start from or pass through: a legal configuration (R9), K registers (R21), and the
buffer in canonical form inside 0..N-1 (R37). -/
structure State.WF (s : State) : Prop where
  legal : s.cfg.legal = true
  regs  : s.regs.length = s.cfg.numRegs
  mem   : s.mem.wf s.cfg.memSize = true

/-- The invariant of every run: the state is well formed, under `REG0_MODE = Fault` the pc is in 0..259
(R28), and no more instructions have completed than `STEP_LIMIT` allows (R81 step (1)). -/
structure State.Inv (s : State) : Prop where
  wf     : s.WF
  pc     : s.cfg.reg0Mode = .fault → s.pc.toNat ≤ 259
  budget : ∀ l, s.cfg.stepLimit = some l → s.steps ≤ l

/-- The instruction `i` stands at the pc, whole inside the buffer (R60): the bytes p .. p+w-1 are its
encoding. -/
structure State.Holds (s : State) (i : Instr) : Prop where
  low   : 0 ≤ s.instrAddr
  high  : s.instrAddr + i.width ≤ s.memSize
  bytes : s.mem.slice s.instrAddr.toNat i.width = encode s.cfg.opcodes i

/-- A step is due: the configuration is legal, the run is in progress and the step budget is not spent. -/
structure State.Ready (s : State) : Prop where
  legal   : s.cfg.legal = true
  running : s.status = .running
  budget  : ∀ l, s.cfg.stepLimit = some l → s.steps < l

/-- `t` is `s` with the error `k` recorded at the pc of `s`, and nothing else changed (R145, R146). -/
def State.ErrorOf (s : State) (k : ErrorKind) (t : State) : Prop :=
  t = { s with status := .error k s.pc }

/-- Every byte of memory reads as before. -/
def State.SameMemory (s t : State) : Prop := ∀ a, t.byteAt a = s.byteAt a

/-- Every register but the pc and those of `ds` reads as before. -/
def State.SameRegsBut (s t : State) (ds : List Nat) : Prop :=
  ∀ q, q ≠ 0 → q ∉ ds → t.reg q = s.reg q

/-- What every instruction but HALT leaves alone (R30, R131): the configuration, the run status and with
it the error record. The step is counted (R81 step (7)). -/
structure State.Completed (s t : State) : Prop where
  cfg    : t.cfg = s.cfg
  status : t.status = s.status
  steps  : t.steps = s.steps + 1

/-- Which operand bytes of an instruction are register indices, as offsets from the opcode byte, in
operand order (R62, R142). -/
def regOffsets : Mnemonic → List Nat
  | .LOAD  => [1]
  | .STORE => [1]
  | .ADD   => [1, 2]
  | .SUB   => [1, 2]
  | .ADDI  => [1]
  | .SUBI  => [1]
  | .JUMP  => []
  | .BEQ   => [1, 2]
  | .BEQZ  => []
  | .HALT  => []

/-- Whether the data access of the instruction `m` at `p` leaves the buffer (R141 (c)): for LOAD and STORE
the address operand is the byte at p + 2. -/
def State.dataOutOfBounds (s : State) (p : Nat) : Mnemonic → Bool
  | .LOAD  => decide (s.memSize < (s.byteAt (p + 2)).toNat + 2)
  | .STORE => decide (s.memSize < (s.byteAt (p + 2)).toNat + 2)
  | _      => false

/-- R149: the first condition that fails, in the order of R81, read from the bytes at the pc alone. -/
def State.firstFailure (s : State) : Option ErrorKind :=
  if s.cfg.stepLimit.any (fun l => decide (l ≤ s.steps)) then some .stepLimitExceeded
  else if s.instrAddr < 0 ∨ s.instrAddr ≥ s.memSize then some .outOfBoundsAccess
  else
    match s.cfg.opcodes.decodeOpcode (s.byteAt s.instrAddr.toNat) with
    | none => some .unknownOpcode
    | some m =>
      if s.instrAddr + m.width > s.memSize then some .outOfBoundsAccess
      else if (regOffsets m).any (fun k => !s.cfg.validReg (s.byteAt (s.instrAddr.toNat + k))) then
        some .invalidRegisterIndex
      else if s.dataOutOfBounds s.instrAddr.toNat m then some .outOfBoundsAccess
      else none

/-- `k` steps from `s` end in `t`, with no stop on the way. -/
def State.RunsTo (s : State) (k : Nat) (t : State) : Prop := Sys2Proof.core.run k s = .next t

/-- A safe run: it ends by HALT, not by an error (R130, R162; the form of claim that D5 and D9 ask for). -/
def State.EndsHalted (s : State) : Prop := ∃ k t, s.RunsTo k t ∧ t.status = .halted

end Sys2Proof.Machine
end

