-- ==== Sys2Proof/Certificates/Slice0/Obligations.lean ====
section
/-! DEFINITION. The statements for the provers. Each docstring names the rule of spec/ it formalises. `t` is
the state after, `s` the state before. "Next" always means `Host.Outcome.next`. -/

section

open Sys2Proof Sys2Proof.Machine

/-! ### Encoding -/

/-- R64: the default opcode bytes, and every other byte unknown under them. -/
def Obligations.DefaultOpcodeBytes : Prop :=
  OpcodeMap.standard.injective = true ∧
  Mnemonic.all.map OpcodeMap.standard.byte = [0x01, 0x02, 0x03, 0x04, 0x05, 0x06, 0x07, 0x08, 0x09, 0x0A] ∧
  ∀ b : Byte, OpcodeMap.standard.decodeOpcode b = none ↔ (b = 0x00 ∨ 0x0B ≤ b.toNat)

/-- The decode table of 95_test_vectors.md section 2.1. -/
def Obligations.SpecWordsDecode : Prop :=
  decode .standard [0x01, 0x02, 0x2E] = .ok (.load 2 46, []) ∧
  decode .standard [0x02, 0x03, 0x2C] = .ok (.store 3 44, []) ∧
  decode .standard [0x03, 0x01, 0x02] = .ok (.add 1 2, []) ∧
  decode .standard [0x04, 0x02, 0x01] = .ok (.sub 2 1, []) ∧
  decode .standard [0x05, 0x03] = .ok (.addi 3, []) ∧
  decode .standard [0x06, 0x01] = .ok (.subi 1, []) ∧
  decode .standard [0x07, 0xFF] = .ok (.jump 255, []) ∧
  decode .standard [0x08, 0x01, 0x02, 0x0C] = .ok (.beq 1 2 12, []) ∧
  decode .standard [0x09, 0x00] = .ok (.beqz 0, []) ∧
  decode .standard [0x0A] = .ok (.halt, []) ∧
  decode .standard [0x00] = .error (.unknownOpcode 0x00) ∧
  decode .standard [0x0B] = .error (.unknownOpcode 0x0B) ∧
  decode .standard [0xFF] = .error (.unknownOpcode 0xFF)

/-- R61, R65: the bytes of every instruction, opcode first, one byte an operand in the table's order, and
the widths, under any opcode map. -/
def Obligations.FormatsAndWidths : Prop :=
  ∀ (om : OpcodeMap) (r r1 r2 a : Byte),
    (encode om (.load r a) = [om.load, r, a] ∧ Mnemonic.LOAD.width = 3) ∧
    (encode om (.store r a) = [om.store, r, a] ∧ Mnemonic.STORE.width = 3) ∧
    (encode om (.add r1 r2) = [om.add, r1, r2] ∧ Mnemonic.ADD.width = 3) ∧
    (encode om (.sub r1 r2) = [om.sub, r1, r2] ∧ Mnemonic.SUB.width = 3) ∧
    (encode om (.addi r) = [om.addi, r] ∧ Mnemonic.ADDI.width = 2) ∧
    (encode om (.subi r) = [om.subi, r] ∧ Mnemonic.SUBI.width = 2) ∧
    (encode om (.jump a) = [om.jump, a] ∧ Mnemonic.JUMP.width = 2) ∧
    (encode om (.beq r1 r2 a) = [om.beq, r1, r2, a] ∧ Mnemonic.BEQ.width = 4) ∧
    (encode om (.beqz a) = [om.beqz, a] ∧ Mnemonic.BEQZ.width = 2) ∧
    (encode om .halt = [om.halt] ∧ Mnemonic.HALT.width = 1)

/-- R66: decoding an opcode byte gives `some m` when the byte is `opcodeByte(m)` and `none` for every other
byte, and it fixes the width: the decoder takes exactly `width(m)` bytes. -/
def Obligations.OpcodeDecodeIsTotal : Prop :=
  ∀ om : OpcodeMap, om.injective = true →
    (∀ (b : Byte) (m : Mnemonic), om.decodeOpcode b = some m ↔ b = om.byte m) ∧
    (∀ b : Byte, om.decodeOpcode b = none ↔ ∀ m, b ≠ om.byte m) ∧
    (∀ (b : Byte) (rest tail : List Byte) (i : Instr), decode om (b :: rest) = .ok (i, tail) →
      om.decodeOpcode b = some i.mnemonic ∧
      (b :: rest).length = tail.length + i.mnemonic.width)

/-- Decoding an encoding gives the instruction back, with every operand at every value, under any legal
opcode map and before any bytes (R61 to R66). -/
def Obligations.DecodeOfEncode : Prop :=
  ∀ (om : OpcodeMap) (i : Instr) (rest : List Byte), om.injective = true →
    decode om (encode om i ++ rest) = .ok (i, rest)

/-- Bytes that decode are the encoding of what they decode to, so every word has one meaning (R66, R69). -/
def Obligations.EncodeOfDecode : Prop :=
  ∀ (om : OpcodeMap) (bytes rest : List Byte) (i : Instr), decode om bytes = .ok (i, rest) →
    bytes = encode om i ++ rest

/-! ### Memory primitives and byte order -/

/-- R43: `MemRead(a, n)` for n in 1, 2. -/
def Obligations.MemReadChecksThenReads : Prop :=
  ∀ (s : State) (a : Int) (n : Nat), n = 1 ∨ n = 2 →
    ((a < 0 ∨ a + n > s.memSize) → s.memRead a n = .error .outOfBoundsAccess) ∧
    (0 ≤ a → a + n ≤ s.memSize → n = 1 → s.memRead a n = .ok (s.byteAt a.toNat).toNat) ∧
    (0 ≤ a → a + n ≤ s.memSize → n = 2 →
      s.memRead a n = .ok ((s.byteAt a.toNat).toNat + (s.byteAt (a.toNat + 1)).toNat * 256))

/-- `MemWrite(a, 2, v)` writes both bytes, the low one at a, or no byte at all; nothing else changes (R44).
The last conjunct, that the model's memory list keeps its canonical form, is the model's choice (DESIGN CHOICE,
log 6) and no rule of the spec. -/
def Obligations.MemWriteAllOrNothing : Prop :=
  ∀ (s : State) (a : Int) (v : Word), s.WF →
    ((a < 0 ∨ a + 2 > s.memSize) → s.memWrite a 2 v = .error .outOfBoundsAccess) ∧
    (0 ≤ a → a + 2 ≤ s.memSize → ∃ t, s.memWrite a 2 v = .ok t ∧
      (t.byteAt a.toNat).toNat = v.toNat % 256 ∧
      (t.byteAt (a.toNat + 1)).toNat = v.toNat / 256 ∧
      (∀ b, b ≠ a.toNat → b ≠ a.toNat + 1 → t.byteAt b = s.byteAt b) ∧
      t = { s with mem := t.mem } ∧ t.mem.wf s.memSize = true)

/-- R45: the little-endian encoding of a value, its decoding, the round trip for every v in
-32768..32767, and its use by LOAD and STORE. -/
def Obligations.LittleEndianRoundTrip : Prop :=
  (∀ v : Int, -32768 ≤ v → v ≤ 32767 → ∃ lo hi : Byte, encodeLE v = [lo, hi] ∧
    (lo.toNat : Int) = v % 256 ∧ (hi.toNat : Int) = (v / 256) % 256 ∧ decodeLE lo hi = v) ∧
  (∀ lo hi : Byte, (ofLoHi lo hi).toNat = lo.toNat + hi.toNat * 256 ∧
    decodeLE lo hi = sint16 (ofLoHi lo hi)) ∧
  (∀ (s : State) (r a : Byte), s.WF → s.cfg.validReg r = true → r.toNat ≠ 0 → a.toNat + 2 ≤ s.memSize →
    ∃ t, exec (.load r a) s = .next t ∧ sint16 (t.reg r.toNat) = s.mem.readSlot a.toNat) ∧
  (∀ (s : State) (r a : Byte), s.WF → s.cfg.validReg r = true → a.toNat + 2 ≤ s.memSize →
    ∃ t, exec (.store r a) s = .next t ∧ t.mem.readSlot a.toNat = sint16 (s.reg r.toNat))

/-- R47: a LOAD sees the bytes as they stand, so a LOAD that overlaps an earlier STORE mixes the stored
bytes with their neighbours. -/
def Obligations.LoadSeesOverlappingStore : Prop :=
  ∀ (s : State) (r q a b : Byte), s.WF → s.cfg.validReg r = true → s.cfg.validReg q = true → q.toNat ≠ 0 →
    a.toNat + 2 ≤ s.memSize → b.toNat + 2 ≤ s.memSize →
    ∃ t u, exec (.store r a) s = .next t ∧ exec (.load q b) t = .next u ∧
      (b.toNat = a.toNat → u.reg q.toNat = s.reg r.toNat) ∧
      (b.toNat = a.toNat + 1 → (u.reg q.toNat).toNat =
        (s.reg r.toNat).toNat / 256 + 256 * (s.byteAt (a.toNat + 2)).toNat) ∧
      (b.toNat + 1 = a.toNat → (u.reg q.toNat).toNat =
        (s.byteAt b.toNat).toNat + 256 * ((s.reg r.toNat).toNat % 256)) ∧
      ((b.toNat + 1 < a.toNat ∨ a.toNat + 1 < b.toNat) → (u.reg q.toNat).toNat =
        (s.byteAt b.toNat).toNat + 256 * (s.byteAt (b.toNat + 1)).toNat)

/-! ### The instructions: encoding, completion, result and frame, and where each raises an error

Each completion clause has hypotheses on the state and the operands alone. Destination register 0 is a form
of `AliasPc` only; its clause says that the next pc is the written value plus the width (R90). -/

/-- R100. LOAD. -/
def Obligations.LoadRule : Prop :=
  (∀ (om : OpcodeMap) (r a : Byte), encode om (.load r a) = [om.load, r, a] ∧
    encode .standard (.load r a) = [0x01, r, a]) ∧
  (∀ (s : State) (r a : Byte), s.WF → s.cfg.validReg r = true → a.toNat + 2 ≤ s.memSize →
    ∃ t, exec (.load r a) s = .next t ∧
      (r.toNat ≠ 0 → t.pc = s.pc + 3 ∧ (t.reg r.toNat).toNat =
        (s.byteAt a.toNat).toNat + (s.byteAt (a.toNat + 1)).toNat * 256) ∧
      (r.toNat = 0 → t.pc = BitVec.ofNat 16
        ((s.byteAt a.toNat).toNat + (s.byteAt (a.toNat + 1)).toNat * 256 + 3)) ∧
      s.SameRegsBut t [r.toNat] ∧ s.SameMemory t ∧ s.Completed t) ∧
  (∀ (s : State) (r a : Byte), s.cfg.validReg r = false →
    ∃ t, exec (.load r a) s = .next t ∧ s.ErrorOf .invalidRegisterIndex t) ∧
  (∀ (s : State) (r a : Byte), s.cfg.validReg r = true → s.memSize < a.toNat + 2 →
    ∃ t, exec (.load r a) s = .next t ∧ s.ErrorOf .outOfBoundsAccess t)

/-- R101. STORE; the address stored to is `effAddr a`, the meaning's own expression (R102). -/
def Obligations.StoreRule : Prop :=
  (∀ (om : OpcodeMap) (r a : Byte), encode om (.store r a) = [om.store, r, a] ∧
    encode .standard (.store r a) = [0x02, r, a]) ∧
  (∀ (s : State) (r a : Byte), s.WF → s.cfg.validReg r = true → a.toNat + 2 ≤ s.memSize →
    ∃ t, exec (.store r a) s = .next t ∧ t.pc = s.pc + 3 ∧
      (∀ ea, effAddr a = ea → ea = a.toNat ∧
        (t.byteAt ea).toNat = (s.reg r.toNat).toNat % 256 ∧
        (t.byteAt (ea + 1)).toNat = (s.reg r.toNat).toNat / 256 ∧
        ∀ b, b ≠ ea → b ≠ ea + 1 → t.byteAt b = s.byteAt b) ∧
      s.SameRegsBut t [] ∧ s.Completed t) ∧
  (∀ (s : State) (r a : Byte), s.cfg.validReg r = false →
    ∃ t, exec (.store r a) s = .next t ∧ s.ErrorOf .invalidRegisterIndex t) ∧
  (∀ (s : State) (r a : Byte), s.cfg.validReg r = true → s.memSize < a.toNat + 2 →
    ∃ t, exec (.store r a) s = .next t ∧ s.ErrorOf .outOfBoundsAccess t)

/-- R110. ADD. -/
def Obligations.AddRule : Prop :=
  (∀ (om : OpcodeMap) (d r : Byte), encode om (.add d r) = [om.add, d, r] ∧
    encode .standard (.add d r) = [0x03, d, r]) ∧
  (∀ (s : State) (d r : Byte), s.WF → s.cfg.validReg d = true → s.cfg.validReg r = true →
    ∃ t, exec (.add d r) s = .next t ∧
      (d.toNat ≠ 0 → t.pc = s.pc + 3 ∧ t.reg d.toNat = s.reg d.toNat + s.reg r.toNat) ∧
      (d.toNat = 0 → t.pc = s.pc + s.reg r.toNat + 3) ∧
      s.SameRegsBut t [d.toNat] ∧ s.SameMemory t ∧ s.Completed t) ∧
  (∀ (s : State) (d r : Byte), s.cfg.validReg d = false ∨ s.cfg.validReg r = false →
    ∃ t, exec (.add d r) s = .next t ∧ s.ErrorOf .invalidRegisterIndex t)

/-- R111. SUB. -/
def Obligations.SubRule : Prop :=
  (∀ (om : OpcodeMap) (d r : Byte), encode om (.sub d r) = [om.sub, d, r] ∧
    encode .standard (.sub d r) = [0x04, d, r]) ∧
  (∀ (s : State) (d r : Byte), s.WF → s.cfg.validReg d = true → s.cfg.validReg r = true →
    ∃ t, exec (.sub d r) s = .next t ∧
      (d.toNat ≠ 0 → t.pc = s.pc + 3 ∧ t.reg d.toNat = s.reg d.toNat - s.reg r.toNat) ∧
      (d.toNat = 0 → t.pc = s.pc - s.reg r.toNat + 3) ∧
      s.SameRegsBut t [d.toNat] ∧ s.SameMemory t ∧ s.Completed t) ∧
  (∀ (s : State) (d r : Byte), s.cfg.validReg d = false ∨ s.cfg.validReg r = false →
    ∃ t, exec (.sub d r) s = .next t ∧ s.ErrorOf .invalidRegisterIndex t)

/-- R112. ADDI. -/
def Obligations.AddiRule : Prop :=
  (∀ (om : OpcodeMap) (r : Byte), encode om (.addi r) = [om.addi, r] ∧
    encode .standard (.addi r) = [0x05, r]) ∧
  (∀ (s : State) (r : Byte), s.WF → s.cfg.validReg r = true →
    ∃ t, exec (.addi r) s = .next t ∧
      (r.toNat ≠ 0 → t.pc = s.pc + 2 ∧ t.reg r.toNat = s.reg r.toNat + 1) ∧
      (r.toNat = 0 → t.pc = s.pc + 3) ∧
      s.SameRegsBut t [r.toNat] ∧ s.SameMemory t ∧ s.Completed t) ∧
  (∀ (s : State) (r : Byte), s.cfg.validReg r = false →
    ∃ t, exec (.addi r) s = .next t ∧ s.ErrorOf .invalidRegisterIndex t)

/-- R113. SUBI. -/
def Obligations.SubiRule : Prop :=
  (∀ (om : OpcodeMap) (r : Byte), encode om (.subi r) = [om.subi, r] ∧
    encode .standard (.subi r) = [0x06, r]) ∧
  (∀ (s : State) (r : Byte), s.WF → s.cfg.validReg r = true →
    ∃ t, exec (.subi r) s = .next t ∧
      (r.toNat ≠ 0 → t.pc = s.pc + 2 ∧ t.reg r.toNat = s.reg r.toNat - 1) ∧
      (r.toNat = 0 → t.pc = s.pc + 1) ∧
      s.SameRegsBut t [r.toNat] ∧ s.SameMemory t ∧ s.Completed t) ∧
  (∀ (s : State) (r : Byte), s.cfg.validReg r = false →
    ∃ t, exec (.subi r) s = .next t ∧ s.ErrorOf .invalidRegisterIndex t)

/-- R120. JUMP completes for every target byte, with no check of it. -/
def Obligations.JumpRule : Prop :=
  (∀ (om : OpcodeMap) (a : Byte), encode om (.jump a) = [om.jump, a] ∧
    encode .standard (.jump a) = [0x07, a]) ∧
  (∀ (s : State) (a : Byte), s.WF →
    ∃ t, exec (.jump a) s = .next t ∧ t.pc.toNat = a.toNat ∧
      s.SameRegsBut t [] ∧ s.SameMemory t ∧ s.Completed t)

/-- R121. BEQ. -/
def Obligations.BeqRule : Prop :=
  (∀ (om : OpcodeMap) (i j a : Byte), encode om (.beq i j a) = [om.beq, i, j, a] ∧
    encode .standard (.beq i j a) = [0x08, i, j, a]) ∧
  (∀ (s : State) (i j a : Byte), s.WF → s.cfg.validReg i = true → s.cfg.validReg j = true →
    ∃ t, exec (.beq i j a) s = .next t ∧
      (s.reg i.toNat = s.reg j.toNat → t.pc.toNat = a.toNat) ∧
      (s.reg i.toNat ≠ s.reg j.toNat → t.pc = s.pc + 4) ∧
      s.SameRegsBut t [] ∧ s.SameMemory t ∧ s.Completed t) ∧
  (∀ (s : State) (i j a : Byte), s.cfg.validReg i = false ∨ s.cfg.validReg j = false →
    ∃ t, exec (.beq i j a) s = .next t ∧ s.ErrorOf .invalidRegisterIndex t)

/-- R122, R24. BEQZ tests x[1], whatever the other registers hold. -/
def Obligations.BeqzRule : Prop :=
  (∀ (om : OpcodeMap) (a : Byte), encode om (.beqz a) = [om.beqz, a] ∧
    encode .standard (.beqz a) = [0x09, a]) ∧
  (∀ (s : State) (a : Byte), s.WF →
    ∃ t, exec (.beqz a) s = .next t ∧
      (s.reg 1 = 0 → t.pc.toNat = a.toNat) ∧
      (s.reg 1 ≠ 0 → t.pc = s.pc + 2) ∧
      s.SameRegsBut t [] ∧ s.SameMemory t ∧ s.Completed t)

/-- HALT ends the run with success (R130): the pc stays, the step counts, nothing else changes, and STATUS
reads 1 (R31). The last clause, that a step from the halted state answers the fault `runEnded`, is the model's
choice (DEDUCED, log 9) and no rule of the spec, which says only that no step applies there (R88). -/
def Obligations.HaltRule : Prop :=
  (∀ om : OpcodeMap, encode om .halt = [om.halt] ∧ encode .standard .halt = [0x0A]) ∧
  (∀ s : State, ∃ t, exec .halt s = .next t ∧
    t.status = .halted ∧ t.statusReg = 1 ∧ t.pc = s.pc ∧ t.steps = s.steps + 1 ∧ t.cfg = s.cfg ∧
    s.SameRegsBut t [] ∧ s.SameMemory t ∧
    (t.cfg.legal = true → step t = .fault .runEnded))

/-! ### Arithmetic and the pc as an operand -/

/-- R114: the signed result of ADD, SUB, ADDI and SUBI is the true result, or the true result plus or minus
65536 when that falls outside -32768..32767; nothing saturates and nothing traps. -/
def Obligations.SignedArithmeticWraps : Prop :=
  ∀ (s : State) (d r : Byte), s.WF → s.cfg.validReg d = true → s.cfg.validReg r = true → d.toNat ≠ 0 →
    ∀ (i : Instr) (z : Int),
      (i = .add d r ∧ z = sint16 (s.reg d.toNat) + sint16 (s.reg r.toNat)) ∨
      (i = .sub d r ∧ z = sint16 (s.reg d.toNat) - sint16 (s.reg r.toNat)) ∨
      (i = .addi d ∧ z = sint16 (s.reg d.toNat) + 1) ∨
      (i = .subi d ∧ z = sint16 (s.reg d.toNat) - 1) →
      ∃ t, exec i s = .next t ∧ t.status = s.status ∧
        sint16 (t.reg d.toNat) =
          if z < -32768 then z + 65536 else if z > 32767 then z - 65536 else z

/-- R116: with one register as source and destination, ADD doubles it and SUB clears it; under `AliasPc`,
ADD r0, r0 at p continues at 2p + 3. -/
def Obligations.SourceMayBeDestination : Prop :=
  ∀ (s : State) (r : Byte), s.WF → s.cfg.validReg r = true →
    (r.toNat ≠ 0 → ∃ t, exec (.add r r) s = .next t ∧
      (t.reg r.toNat).toNat = 2 * (s.reg r.toNat).toNat % 65536) ∧
    (r.toNat ≠ 0 → ∃ t, exec (.sub r r) s = .next t ∧ t.reg r.toNat = 0) ∧
    (r.toNat = 0 → ∃ t, exec (.add r r) s = .next t ∧ t.pc.toNat = (2 * s.pc.toNat + 3) % 65536)

/-- R89: under `AliasPc` an operand 0 reads p, in STORE, ADD, SUB and BEQ (where it is also a destination,
see R90); under `Fault` the same forms raise. -/
def Obligations.OperandZeroReadsPc : Prop :=
  ∀ (s : State) (r a : Byte), s.WF →
    (s.cfg.reg0Mode = .aliasPc → a.toNat + 2 ≤ s.memSize → ∃ t, exec (.store 0 a) s = .next t ∧
      (t.byteAt a.toNat).toNat = s.pc.toNat % 256 ∧ (t.byteAt (a.toNat + 1)).toNat = s.pc.toNat / 256) ∧
    (s.cfg.reg0Mode = .aliasPc → s.cfg.validReg r = true → r.toNat ≠ 0 →
      (∃ t, exec (.add r 0) s = .next t ∧ t.reg r.toNat = s.reg r.toNat + s.pc) ∧
      (∃ t, exec (.sub r 0) s = .next t ∧ t.reg r.toNat = s.reg r.toNat - s.pc)) ∧
    (s.cfg.reg0Mode = .aliasPc → s.cfg.validReg r = true → ∀ i, i = .beq 0 r a ∨ i = .beq r 0 a →
      ∃ t, exec i s = .next t ∧
        (s.pc = s.reg r.toNat → t.pc.toNat = a.toNat) ∧ (s.pc ≠ s.reg r.toNat → t.pc = s.pc + 4)) ∧
    (s.cfg.reg0Mode = .fault →
      ∀ i, i = .store 0 a ∨ i = .add r 0 ∨ i = .sub r 0 ∨ i = .beq 0 r a ∨ i = .beq r 0 a →
      ∃ t, exec i s = .next t ∧ s.ErrorOf .invalidRegisterIndex t)

/-- R90: under `AliasPc` an operation that writes register 0 sets x[0] to its result v and the advance
follows, so the next pc is wrap16(v + w). -/
def Obligations.DestinationZeroWritesPc : Prop :=
  ∀ (s : State) (r a : Byte) (i : Instr) (v w : Nat),
    s.WF → s.cfg.reg0Mode = .aliasPc → s.cfg.validReg r = true → a.toNat + 2 ≤ s.memSize →
    (i = .load 0 a ∧ v = (s.byteAt a.toNat).toNat + 256 * (s.byteAt (a.toNat + 1)).toNat ∧ w = 3) ∨
    (i = .add 0 r ∧ v = s.pc.toNat + (s.reg r.toNat).toNat ∧ w = 3) ∨
    (i = .sub 0 r ∧ v = s.pc.toNat + (65536 - (s.reg r.toNat).toNat) ∧ w = 3) ∨
    (i = .addi 0 ∧ v = s.pc.toNat + 1 ∧ w = 2) ∨
    (i = .subi 0 ∧ v = s.pc.toNat + 65535 ∧ w = 2) →
    ∃ t, exec i s = .next t ∧ t.pc.toNat = (v + w) % 65536 ∧
      s.SameRegsBut t [] ∧ s.SameMemory t ∧ s.Completed t

/-! ### The step -/

/-- R81: when an instruction stands whole at the pc and a step is due, the step is the execution of that
instruction, and nothing is added around it; the same said of bytes that decode to it. -/
def Obligations.StepRunsDecodedInstruction : Prop :=
  (∀ (s : State) (i : Instr), s.Ready → s.Holds i → step s = exec i s) ∧
  (∀ (s : State) (i : Instr) (n : Nat) (rest : List Byte), s.Ready →
    0 ≤ s.instrAddr → s.instrAddr + n ≤ s.memSize →
    decode s.cfg.opcodes (s.mem.slice s.instrAddr.toNat n) = .ok (i, rest) → step s = exec i s)

/-- R144: `StepLimitExceeded`, before any fetch, exactly when the limit is reached. -/
def Obligations.StepLimitExceededExactly : Prop :=
  ∀ s : State, s.cfg.legal = true → s.status = .running →
    (∀ l, s.cfg.stepLimit = some l → l ≤ s.steps →
      ∃ t, step s = .next t ∧ s.ErrorOf .stepLimitExceeded t) ∧
    (∀ t p, step s = .next t → t.status = .error .stepLimitExceeded p →
      ∃ l, s.cfg.stepLimit = some l ∧ l ≤ s.steps) ∧
    (s.cfg.stepLimit = none → ∀ t p, step s = .next t → t.status ≠ .error .stepLimitExceeded p)

/-- R143: `UnknownOpcode`, exactly when the byte at p is in the buffer and decodes to nothing. -/
def Obligations.UnknownOpcodeExactly : Prop :=
  ∀ s : State, s.Ready →
    (0 ≤ s.instrAddr → s.instrAddr < s.memSize →
      s.cfg.opcodes.decodeOpcode (s.byteAt s.instrAddr.toNat) = none →
      ∃ t, step s = .next t ∧ s.ErrorOf .unknownOpcode t) ∧
    (∀ t p, step s = .next t → t.status = .error .unknownOpcode p →
      p = s.pc ∧ 0 ≤ s.instrAddr ∧ s.instrAddr < s.memSize ∧
      s.cfg.opcodes.decodeOpcode (s.byteAt s.instrAddr.toNat) = none)

/-- R141: `OutOfBoundsAccess`, exactly for the opcode fetch, the operand fetch, and the data access of
LOAD and STORE. -/
def Obligations.OutOfBoundsAccessExactly : Prop :=
  ∀ s : State, s.Ready →
    ((s.instrAddr < 0 ∨ s.instrAddr ≥ s.memSize) →
      ∃ t, step s = .next t ∧ s.ErrorOf .outOfBoundsAccess t) ∧
    (∀ m : Mnemonic, 0 ≤ s.instrAddr → s.instrAddr < s.memSize →
      s.cfg.opcodes.decodeOpcode (s.byteAt s.instrAddr.toNat) = some m →
      s.instrAddr + m.width > s.memSize →
      ∃ t, step s = .next t ∧ s.ErrorOf .outOfBoundsAccess t) ∧
    (∀ (r a : Byte) (i : Instr), i = .load r a ∨ i = .store r a → s.Holds i →
      s.cfg.validReg r = true → a.toNat + 2 > s.memSize →
      ∃ t, step s = .next t ∧ s.ErrorOf .outOfBoundsAccess t) ∧
    (∀ t p, step s = .next t → t.status = .error .outOfBoundsAccess p → p = s.pc ∧
      ((s.instrAddr < 0 ∨ s.instrAddr ≥ s.memSize) ∨
       (∃ m, s.cfg.opcodes.decodeOpcode (s.byteAt s.instrAddr.toNat) = some m ∧
         s.instrAddr + m.width > s.memSize) ∨
       (∃ r a, (s.Holds (.load r a) ∨ s.Holds (.store r a)) ∧ a.toNat + 2 > s.memSize)))

/-- R142: `InvalidRegisterIndex`, exactly when a register operand of the instruction is not valid; which
operands are register operands, and which of their values are not valid in each mode. -/
def Obligations.InvalidRegisterIndexExactly : Prop :=
  (∀ r r1 r2 a : Byte,
    (Instr.load r a).regOperands = [r] ∧ (Instr.store r a).regOperands = [r] ∧
    (Instr.add r1 r2).regOperands = [r1, r2] ∧ (Instr.sub r1 r2).regOperands = [r1, r2] ∧
    (Instr.addi r).regOperands = [r] ∧ (Instr.subi r).regOperands = [r] ∧
    (Instr.beq r1 r2 a).regOperands = [r1, r2] ∧ (Instr.jump a).regOperands = [] ∧
    (Instr.beqz a).regOperands = [] ∧ Instr.halt.regOperands = []) ∧
  (∀ (c : Config) (r : Byte),
    (c.reg0Mode = .fault → (c.validReg r = false ↔ (r.toNat = 0 ∨ c.numRegs ≤ r.toNat))) ∧
    (c.reg0Mode = .aliasPc → (c.validReg r = false ↔ c.numRegs ≤ r.toNat))) ∧
  (∀ s : State, s.Ready →
    (∀ i r, s.Holds i → r ∈ i.regOperands → s.cfg.validReg r = false →
      ∃ t, step s = .next t ∧ s.ErrorOf .invalidRegisterIndex t) ∧
    (∀ t p, step s = .next t → t.status = .error .invalidRegisterIndex p →
      p = s.pc ∧ ∃ i r, s.Holds i ∧ r ∈ i.regOperands ∧ s.cfg.validReg r = false))

/-- R149: a step reports exactly one error, the first that fails in the order of R81, and completes when
none fails. So every step of a run in progress answers a next state. -/
def Obligations.FirstFailureIsReported : Prop :=
  ∀ s : State, s.cfg.legal = true → s.status = .running →
    (∀ k, s.firstFailure = some k → ∃ t, step s = .next t ∧ s.ErrorOf k t) ∧
    (s.firstFailure = none → ∃ t, step s = .next t ∧ t.steps = s.steps + 1 ∧
      (t.status = .running ∨ t.status = .halted))

/-- R146, R86: errors are precise. A step that ends in an error leaves registers, memory, pc and the step
count as they were before it; what earlier steps wrote stays. -/
def Obligations.ErrorsArePrecise : Prop :=
  (∀ (s t : State) (k : ErrorKind) (p : Word), step s = .next t → t.status = .error k p →
    s.ErrorOf k t ∧ p = s.pc) ∧
  (∀ (s u t : State) (n : Nat) (k : ErrorKind) (p : Word), s.RunsTo n u → step u = .next t →
    t.status = .error k p → ∀ a, t.byteAt a = u.byteAt a)

/-- R31 to R33, R140: what the host reads after an error, and that STATUS and ERR_KIND never show a reserved
code. -/
def Obligations.ErrorRecordReadByHost : Prop :=
  (∀ (s : State) (k : ErrorKind), (s.raise k).statusReg = 2 ∧ (s.raise k).errPcReg = s.pc ∧
    (s.raise k).errKindReg = k.code) ∧
  (ErrorKind.outOfBoundsAccess.code = 1 ∧ ErrorKind.invalidRegisterIndex.code = 2 ∧
    ErrorKind.unknownOpcode.code = 3 ∧ ErrorKind.stepLimitExceeded.code = 4) ∧
  (∀ s : State, s.statusReg.toNat ≤ 2 ∧
    (s.statusReg = 2 → 1 ≤ s.errKindReg.toNat ∧ s.errKindReg.toNat ≤ 4))

/-- No step applies to a final state (R88), so a run does not go past it and the buffer is not written again.
That the answer to a step there is the fault `runEnded` is the model's choice (DEDUCED, log 9). -/
def Obligations.FinalStatesHaveNoStep : Prop :=
  ∀ s : State, s.cfg.legal = true → s.status ≠ .running →
    step s = .fault .runEnded ∧ ∀ n t, s.RunsTo n t → n = 0 ∧ t = s

/-- R123: targets are absolute and unchecked; the transfer completes and counts, and the next step raises at
the target. -/
def Obligations.TargetsCheckedByNextFetch : Prop :=
  ∀ (s : State) (a : Byte) (i : Instr), s.WF → s.Ready → s.Holds i →
    (i = .jump a ∨
     (∃ r q, i = .beq r q a ∧ s.cfg.validReg r = true ∧ s.cfg.validReg q = true ∧
       s.reg r.toNat = s.reg q.toNat) ∨
     (i = .beqz a ∧ s.reg 1 = 0)) →
    ∃ t, step s = .next t ∧ t.pc.toNat = a.toNat ∧ t.status = .running ∧ t.steps = s.steps + 1 ∧
      ((∀ l, s.cfg.stepLimit = some l → s.steps + 1 < l) →
        (s.memSize ≤ a.toNat → ∃ u, step t = .next u ∧ t.ErrorOf .outOfBoundsAccess u) ∧
        (a.toNat < s.memSize → s.cfg.opcodes.decodeOpcode (s.byteAt a.toNat) = none →
          ∃ u, step t = .next u ∧ t.ErrorOf .unknownOpcode u))

/-- R56: a STORE over the opcode byte of the next instruction is seen by the very next fetch: with the byte
of HALT stored there the run halts, with a byte that is no opcode it ends in `UnknownOpcode`. -/
def Obligations.StoreSeenByNextFetch : Prop :=
  ∀ (s : State) (r a : Byte), s.WF → s.Ready → s.Holds (.store r a) → s.cfg.validReg r = true →
    a.toNat + 2 ≤ s.memSize → a.toNat = s.pc.toNat + 3 → (∀ l, s.cfg.stepLimit = some l → s.steps + 1 < l) →
    ∃ t u, step s = .next t ∧ t.pc.toNat = a.toNat ∧ step t = .next u ∧
      ((s.reg r.toNat).toNat % 256 = s.cfg.opcodes.halt.toNat → u.status = .halted) ∧
      (s.cfg.opcodes.decodeOpcode (BitVec.ofNat 8 ((s.reg r.toNat).toNat % 256)) = none →
        t.ErrorOf .unknownOpcode u)

/-! ### Reset and the host -/

/-- R160, R38: the state a run starts from, whatever ran before. -/
def Obligations.ResetValues : Prop :=
  (∀ (c : Config) (mem : Memory) (s : State), s = State.startRun c mem →
    s.regs.length = c.numRegs ∧ (∀ i, s.reg i = 0) ∧ s.pc = 0 ∧
    s.status = .running ∧ s.statusReg = 0 ∧ s.errKindReg = 0 ∧ s.errPcReg = 0 ∧
    s.stepsReg = 0 ∧ s.cfg = c ∧ ∀ a, s.byteAt a = mem.read a) ∧
  (∀ s : State, s.restart = State.startRun s.cfg s.mem ∧ s.SameMemory s.restart)

/-- The legal parameter sets are those of R8, and any other is rejected before a run (R9). The last clause,
that every step of a state carrying one is refused as `illegalConfiguration`, is the model's choice (DEDUCED,
log 8) and no rule of the spec. -/
def Obligations.IllegalConfigurationsRejected : Prop :=
  (∀ c : Config, c.legal = true ↔
    (1 ≤ c.memSize ∧ c.memSize ≤ 256 ∧ 2 ≤ c.numRegs ∧ c.numRegs ≤ 256 ∧
      ∀ m m' : Mnemonic, c.opcodes.byte m = c.opcodes.byte m' → m = m')) ∧
  (∀ (c : Config) (buffer : List Byte), c.legal = false → State.startBuffer c buffer = none) ∧
  (∀ s : State, s.cfg.legal = false → step s = .refused .illegalConfiguration)

/-- R163, R37: a run starts only on a buffer of exactly N bytes, and then the buffer holds just those
bytes. That `Inv` asks for the canonical form of the memory list is the model's choice (DESIGN CHOICE, log 6). -/
def Obligations.BufferHandedOver : Prop :=
  ∀ (c : Config) (buffer : List Byte), c.legal = true →
    (buffer.length ≠ c.memSize → State.startBuffer c buffer = none) ∧
    (buffer.length = c.memSize → ∃ s, State.startBuffer c buffer = some s ∧ s.Inv ∧
      s.status = .running ∧ s.cfg = c ∧
      ∀ (a : Nat) (b : Byte), buffer[a]? = some b → s.byteAt a = b)

/-! ### Rules about every step -/

/-- The invariant at the start of every run with a legal configuration and a buffer in canonical form (R28,
R37, R38). The last clause is about the model's own reset configuration (log 1 to 4 and 6). -/
def Obligations.InvariantHoldsAtReset : Prop :=
  (∀ (c : Config) (mem : Memory), c.legal = true → mem.wf c.memSize = true → (State.startRun c mem).Inv) ∧
  State.reset.Inv

/-- The invariant is kept by every step, and no step changes the configuration: the buffer stays canonical
and inside 0..N-1, the register file keeps K entries, under `Fault` the pc stays in 0..259 (R28), and the
step count stays within the limit. The canonical form itself is the model's choice (DESIGN CHOICE, log 6). -/
def Obligations.StepKeepsInvariant : Prop :=
  ∀ s t : State, s.Inv → step s = .next t → t.Inv ∧ t.cfg = s.cfg

/-- R42: a byte of memory changes only where a STORE standing at the pc stores. -/
def Obligations.OnlyStoreWritesMemory : Prop :=
  ∀ (s t : State) (b : Nat), step s = .next t → t.byteAt b ≠ s.byteAt b →
    ∃ r a, s.Holds (.store r a) ∧ s.cfg.validReg r = true ∧ a.toNat + 2 ≤ s.memSize ∧
      (b = a.toNat ∨ b = a.toNat + 1)

/-- R23: a general register changes only as the destination operand of LOAD, ADD, SUB, ADDI or SUBI. -/
def Obligations.OnlyDestinationsChange : Prop :=
  ∀ (s t : State) (q : Nat), q ≠ 0 → step s = .next t → t.reg q ≠ s.reg q →
    ∃ r x : Byte, r.toNat = q ∧ s.cfg.validReg r = true ∧
      (s.Holds (.load r x) ∨ s.Holds (.add r x) ∨ s.Holds (.sub r x) ∨
       s.Holds (.addi r) ∨ s.Holds (.subi r))

/-- R82 to R84, R28: under `Fault` the pc after a completed step is p + w with the instruction's own width,
or the address operand of a control transfer, or p for HALT; it never wraps. -/
def Obligations.PcMovesByWidthOrTarget : Prop :=
  ∀ s t : State, s.Inv → s.cfg.reg0Mode = .fault → step s = .next t → (∀ k p, t.status ≠ .error k p) →
    ∃ i, s.Holds i ∧
      ((i = .halt ∧ t.pc = s.pc) ∨
       (i ≠ .halt ∧ (∀ a, i ≠ .jump a) ∧ t.pc.toNat = s.pc.toNat + i.width) ∨
       (∃ a, t.pc.toNat = a.toNat ∧ (i = .jump a ∨ i = .beqz a ∨ ∃ r q, i = .beq r q a)))

/-- R34: STEPS counts the instructions that completed, HALT included, and not one that raises an error. -/
def Obligations.StepsCountsCompleted : Prop :=
  ∀ s t : State, step s = .next t →
    ((∃ k p, t.status = .error k p) → t.steps = s.steps) ∧
    ((∀ k p, t.status ≠ .error k p) → t.steps = s.steps + 1)

/-- R36, R30: no instruction reads the run status or the step count: registers and memory after it are the
same whatever they hold. -/
def Obligations.StatusAndStepsUnreadable : Prop :=
  ∀ (i : Instr) (s : State) (st : RunStatus) (n : Nat),
    ∃ t u, exec i s = .next t ∧ exec i { s with status := st, steps := n } = .next u ∧
      (∀ q, u.reg q = t.reg q) ∧ t.SameMemory u ∧ u.steps - n = t.steps - s.steps

/-- R162, R130: a step ends in `Halted` only by a HALT that stands at the pc, so a run in progress that ends
halted comes to a state where a HALT stands at the pc and a step is due. -/
def Obligations.OnlyHaltHalts : Prop :=
  (∀ s t : State, step s = .next t → t.status = .halted → s.Holds .halt) ∧
  (∀ s : State, s.status = .running → s.EndsHalted → ∃ k u, s.RunsTo k u ∧ u.Ready ∧ u.Holds .halt)

/-- R87: with `STEP_LIMIT = some L` a run makes at most as many steps as the budget has left and one more,
which reports `StepLimitExceeded`; while it is in progress each step has completed one instruction. -/
def Obligations.StepLimitEndsEveryRun : Prop :=
  ∀ (s t : State) (l n : Nat), s.cfg.legal = true → s.cfg.stepLimit = some l → s.steps ≤ l →
    s.RunsTo n t →
      n ≤ l - s.steps + 1 ∧
      (t.status = .running → t.steps = s.steps + n) ∧
      (t.status = .running → n = l - s.steps →
        ∃ u, step t = .next u ∧ t.ErrorOf .stepLimitExceeded u)

/-- R87, R120: with `STEP_LIMIT = none` a JUMP to itself runs forever: after any number of steps the run is
still in progress at the same pc, and nothing but the step count has changed. -/
def Obligations.SelfJumpRunsForever : Prop :=
  ∀ (s : State) (a : Byte), s.WF → s.status = .running → s.cfg.stepLimit = none →
    s.Holds (.jump a) → s.pc.toNat = a.toNat →
    ∀ n, s.RunsTo n { s with steps := s.steps + n }

end
end

