-- ==== Sys2Proof/Laws/Bits.lean ====
section
/-! SUPPORT. The conversions and the wrapping arithmetic in terms of `BitVec` (R11, R45, R114). -/

namespace Sys2Proof.Machine

theorem wrap16_toNat (z : Int) : ((wrap16 z).toNat : Int) = z % 65536 := by
  simp only [wrap16, BitVec.toNat_ofNat]
  omega

theorem wrap16_natCast (n : Nat) : wrap16 (n : Int) = BitVec.ofNat 16 n := by
  apply BitVec.eq_of_toNat_eq
  have h := wrap16_toNat n
  simp only [BitVec.toNat_ofNat]
  omega

theorem wrapAdd_eq_add (x y : Word) : wrapAdd x y = x + y := by
  apply BitVec.eq_of_toNat_eq
  have h := wrap16_toNat ((x.toNat : Int) + y.toNat)
  simp only [wrapAdd, BitVec.toNat_add]
  omega

theorem wrapSub_eq_sub (x y : Word) : wrapSub x y = x - y := by
  apply BitVec.eq_of_toNat_eq
  have h := wrap16_toNat ((x.toNat : Int) - y.toNat)
  have := y.isLt
  simp only [wrapSub, BitVec.toNat_sub]
  omega

theorem wrapInc_eq_add_one (x : Word) : wrapInc x = x + 1 := by
  apply BitVec.eq_of_toNat_eq
  have h := wrap16_toNat ((x.toNat : Int) + 1)
  have h1 : (1 : Word).toNat = 1 := rfl
  simp only [wrapInc, BitVec.toNat_add]
  omega

theorem wrapDec_eq_sub_one (x : Word) : wrapDec x = x - 1 := by
  apply BitVec.eq_of_toNat_eq
  have h := wrap16_toNat ((x.toNat : Int) - 1)
  have h1 : (1 : Word).toNat = 1 := rfl
  have := x.isLt
  simp only [wrapDec, BitVec.toNat_sub]
  omega

theorem sint16_eq_toInt (u : Word) : sint16 u = u.toInt := by
  have := u.isLt
  simp only [sint16, BitVec.toInt]
  split <;> split <;> omega

theorem lo8_toNat (v : Word) : (lo8 v).toNat = v.toNat % 256 := by
  simp only [lo8, BitVec.toNat_ofNat]
  omega

theorem hi8_toNat (v : Word) : (hi8 v).toNat = v.toNat / 256 := by
  have := v.isLt
  simp only [hi8, BitVec.toNat_ofNat]
  omega

theorem ofLoHi_toNat (lo hi : Byte) : (ofLoHi lo hi).toNat = lo.toNat + 256 * hi.toNat := by
  have := lo.isLt
  have := hi.isLt
  simp only [ofLoHi, BitVec.toNat_ofNat]
  omega

/-- Splitting a pattern into its bytes and joining them again gives it back. -/
theorem ofLoHi_lo8_hi8 (v : Word) : ofLoHi (lo8 v) (hi8 v) = v := by
  apply BitVec.eq_of_toNat_eq
  simp only [ofLoHi_toNat, lo8_toNat, hi8_toNat]
  omega

end Sys2Proof.Machine
end

