-- ==== Sys2Proof/Laws/Decode.lean ====
section
/-! SUPPORT. What the opcode map, the operand splitter and the encoder can do, said once each. -/

namespace Sys2Proof

/-- Every mnemonic is in the table. -/
theorem Mnemonic.mem_all (m : Mnemonic) : m ∈ Mnemonic.all := by
  cases m <;> decide

/-- An opcode byte that decodes is the byte of its mnemonic, under any map. -/
theorem OpcodeMap.byte_of_decodeOpcode {om : OpcodeMap} {b : Byte} {m : Mnemonic}
    (h : om.decodeOpcode b = some m) : om.byte m = b := by
  simpa using List.find?_some h

/-- An opcode byte that does not decode is the byte of no mnemonic. -/
theorem OpcodeMap.byte_ne_of_decodeOpcode_none {om : OpcodeMap} {b : Byte}
    (h : om.decodeOpcode b = none) (m : Mnemonic) : om.byte m ≠ b := by
  have := List.find?_eq_none.mp h m m.mem_all
  simpa using this

/-- Under an injective map a byte belongs to one mnemonic. -/
theorem OpcodeMap.byte_inj {om : OpcodeMap} (h : om.injective = true) {m m' : Mnemonic}
    (he : om.byte m = om.byte m') : m = m' := by
  have hn : (Mnemonic.all.map om.byte).Nodup := by simpa [OpcodeMap.injective] using h
  exact List.inj_on_of_nodup_map hn m.mem_all m'.mem_all he

/-- Under an injective map the byte of a mnemonic decodes to it. -/
theorem OpcodeMap.decodeOpcode_byte {om : OpcodeMap} (h : om.injective = true) (m : Mnemonic) :
    om.decodeOpcode (om.byte m) = some m := by
  cases hd : om.decodeOpcode (om.byte m) with
  | none => exact absurd rfl (OpcodeMap.byte_ne_of_decodeOpcode_none hd m)
  | some m' => rw [OpcodeMap.byte_inj h (OpcodeMap.byte_of_decodeOpcode hd)]

/-- Splitting the operand bytes of an instruction gives it back, with the bytes after it. -/
theorem decodeOperands_operands (i : Instr) (rest : List Byte) :
    decodeOperands i.mnemonic (i.operands ++ rest) = some (i, rest) := by
  cases i <;> rfl

/-- What the operand splitter answers is an instruction of the mnemonic asked for, and the bytes are its
operands and the rest. -/
theorem decodeOperands_some {m : Mnemonic} {bs rest : List Byte} {i : Instr}
    (h : decodeOperands m bs = some (i, rest)) : i.mnemonic = m ∧ bs = i.operands ++ rest := by
  unfold decodeOperands at h
  split at h <;> first
    | (simp only [Option.some.injEq, Prod.mk.injEq] at h
       obtain ⟨rfl, rfl⟩ := h
       exact ⟨rfl, rfl⟩)
    | cases h

/-- The operand count of R65. -/
theorem Instr.operands_length (i : Instr) : i.operands.length + 1 = i.width := by
  cases i <;> rfl

theorem encode_length (om : OpcodeMap) (i : Instr) : (encode om i).length = i.width := by
  simpa [encode] using i.operands_length

/-- `width - 1` operand bytes are enough and none is left over. -/
theorem decodeOperands_exact (m : Mnemonic) (bs : List Byte) (h : bs.length = m.width - 1) :
    ∃ i, decodeOperands m bs = some (i, []) := by
  cases m <;> simp only [Mnemonic.width] at h
  case HALT =>
    cases bs with
    | nil => exact ⟨_, rfl⟩
    | cons _ _ => simp at h
  all_goals
    rcases bs with _ | ⟨b1, _ | ⟨b2, _ | ⟨b3, _ | ⟨b4, t⟩⟩⟩⟩ <;> first
      | exact ⟨_, rfl⟩
      | (simp at h)

/-- What the decoder can answer: the three refusals, each for its own reason, or an instruction. -/
theorem decode_cases (om : OpcodeMap) (bs : List Byte) :
    (bs = [] ∧ decode om bs = .error .noOpcode) ∨
    (∃ b rest, bs = b :: rest ∧ om.decodeOpcode b = none ∧ decode om bs = .error (.unknownOpcode b)) ∨
    (∃ b rest m, bs = b :: rest ∧ om.decodeOpcode b = some m ∧ decodeOperands m rest = none ∧
      decode om bs = .error (.truncated m)) ∨
    (∃ b rest m i tail, bs = b :: rest ∧ om.decodeOpcode b = some m ∧
      decodeOperands m rest = some (i, tail) ∧ decode om bs = .ok (i, tail)) := by
  cases bs with
  | nil => exact .inl ⟨rfl, rfl⟩
  | cons b rest =>
    cases hd : om.decodeOpcode b with
    | none => exact .inr (.inl ⟨b, rest, rfl, hd, by simp [decode, hd]⟩)
    | some m =>
      cases ho : decodeOperands m rest with
      | none => exact .inr (.inr (.inl ⟨b, rest, m, rfl, hd, ho, by simp [decode, hd, ho]⟩))
      | some r =>
        obtain ⟨i, tail⟩ := r
        exact .inr (.inr (.inr ⟨b, rest, m, i, tail, rfl, hd, ho, by simp [decode, hd, ho]⟩))

/-- The injectivity that a legal configuration carries. -/
theorem Config.legal_injective {c : Config} (h : c.legal = true) : c.opcodes.injective = true := by
  simp only [Config.legal, Bool.and_eq_true] at h
  exact h.2

/-- The bounds that a legal configuration carries. -/
theorem Config.legal_bounds {c : Config} (h : c.legal = true) :
    1 ≤ c.memSize ∧ c.memSize ≤ 256 ∧ 2 ≤ c.numRegs ∧ c.numRegs ≤ 256 := by
  simp only [Config.legal, Bool.and_eq_true, decide_eq_true_eq] at h
  exact ⟨h.1.1.1, h.1.1.2, h.1.2.1, h.1.2.2⟩

/-- A valid register operand is an index of the file (R25). -/
theorem Config.lt_of_validReg {c : Config} {r : Byte} (h : c.validReg r = true) : r.toNat < c.numRegs := by
  unfold Config.validReg at h
  split at h <;> simp only [decide_eq_true_eq] at h
  · exact h.2
  · exact h

/-- Under `Fault` a valid register operand is not the pc (R25). -/
theorem Config.ne_zero_of_validReg {c : Config} {r : Byte} (hm : c.reg0Mode = .fault)
    (h : c.validReg r = true) : r.toNat ≠ 0 := by
  unfold Config.validReg at h
  rw [hm] at h
  simp only [decide_eq_true_eq] at h
  omega

end Sys2Proof
end

