-- ==== Sys2Proof/Laws/Memory.lean ====
section
/-! SUPPORT. The memory list: reading after writing, the canonical form kept by every operation, and equal
contents being equal data. -/

namespace Sys2Proof.Machine

/-- Nothing below the first address of a canonical list is listed. -/
theorem Memory.read_below {lo n a : Nat} {m : Memory} (h : Memory.wfFrom lo n m = true) (ha : a < lo) :
    m.read a = Memory.unlisted := by
  induction m generalizing lo with
  | nil => rfl
  | cons c rest ih =>
    obtain ⟨b, v⟩ := c
    simp only [Memory.wfFrom, Bool.and_eq_true, decide_eq_true_eq] at h
    simp only [Memory.read]
    rw [if_neg (by omega)]
    exact ih h.2 (by omega)

/-- A canonical list from a higher address is one from a lower address. -/
theorem Memory.wfFrom_mono {lo lo' n : Nat} {m : Memory} (h : Memory.wfFrom lo n m = true)
    (hl : lo' ≤ lo) : Memory.wfFrom lo' n m = true := by
  cases m with
  | nil => rfl
  | cons c rest =>
    obtain ⟨b, v⟩ := c
    simp only [Memory.wfFrom, Bool.and_eq_true, decide_eq_true_eq] at h ⊢
    exact ⟨⟨⟨by omega, h.1.1.2⟩, h.1.2⟩, h.2⟩

/-- A write is seen at its address. -/
theorem Memory.read_write_self {lo n : Nat} {m : Memory} (h : Memory.wfFrom lo n m = true) (a : Nat)
    (v : Byte) : (m.write a v).read a = v := by
  induction m generalizing lo with
  | nil =>
    simp only [Memory.write]
    split
    · next hv => simp [Memory.read, hv]
    · simp [Memory.read]
  | cons c rest ih =>
    obtain ⟨b, w⟩ := c
    simp only [Memory.wfFrom, Bool.and_eq_true, decide_eq_true_eq] at h
    simp only [Memory.write]
    split_ifs with h1 h2 h3 h4
    · simp only [Memory.read]
      rw [if_neg (by omega), h2]
      exact Memory.read_below h.2 (by omega)
    · simp [Memory.read]
    · rw [h4]
      exact Memory.read_below h.2 (by omega)
    · simp [Memory.read]
    · simp only [Memory.read]
      rw [if_neg h3]
      exact ih h.2

/-- A write leaves every other address alone. -/
theorem Memory.read_write_ne (m : Memory) {a b : Nat} (v : Byte) (hab : b ≠ a) :
    (m.write a v).read b = m.read b := by
  induction m with
  | nil =>
    simp only [Memory.write]
    split
    · rfl
    · simp [Memory.read, hab]
  | cons c rest ih =>
    obtain ⟨d, w⟩ := c
    simp only [Memory.write]
    split_ifs with h1 h2 h3 h4
    · rfl
    · simp [Memory.read, hab]
    · subst h3
      simp [Memory.read, hab]
    · subst h3
      simp [Memory.read, hab]
    · simp only [Memory.read, ih]

/-- A write inside the buffer keeps the canonical form. -/
theorem Memory.wfFrom_write {lo n a : Nat} {m : Memory} (v : Byte) (h : Memory.wfFrom lo n m = true)
    (hl : lo ≤ a) (hn : a < n) : Memory.wfFrom lo n (m.write a v) = true := by
  induction m generalizing lo with
  | nil =>
    simp only [Memory.write]
    split
    · rfl
    · next hv => simp [Memory.wfFrom, hl, hn, hv]
  | cons c rest ih =>
    obtain ⟨b, w⟩ := c
    have h' := h
    simp only [Memory.wfFrom, Bool.and_eq_true, decide_eq_true_eq] at h'
    simp only [Memory.write]
    split_ifs with h1 h2 h3 h4
    · exact h
    · simp only [Memory.wfFrom, Bool.and_eq_true, decide_eq_true_eq]
      exact ⟨⟨⟨hl, hn⟩, h2⟩, ⟨⟨⟨by omega, h'.1.1.2⟩, h'.1.2⟩, h'.2⟩⟩
    · exact Memory.wfFrom_mono h'.2 (by omega)
    · simp only [Memory.wfFrom, Bool.and_eq_true, decide_eq_true_eq]
      exact ⟨⟨⟨hl, hn⟩, h4⟩, by rw [h3]; exact h'.2⟩
    · simp only [Memory.wfFrom, Bool.and_eq_true, decide_eq_true_eq]
      exact ⟨h'.1, ih h'.2 (by omega)⟩

/-- A write inside the buffer keeps the canonical form (the form callers use). -/
theorem Memory.wf_write {n a : Nat} {m : Memory} (v : Byte) (h : m.wf n = true) (ha : a < n) :
    (m.write a v).wf n = true :=
  Memory.wfFrom_write v h (Nat.zero_le a) ha

/-- A buffer in canonical form lists nothing past its end. -/
theorem Memory.read_past {lo n a : Nat} {m : Memory} (h : Memory.wfFrom lo n m = true) (ha : n ≤ a) :
    m.read a = Memory.unlisted := by
  induction m generalizing lo with
  | nil => rfl
  | cons c rest ih =>
    obtain ⟨b, v⟩ := c
    simp only [Memory.wfFrom, Bool.and_eq_true, decide_eq_true_eq] at h
    simp only [Memory.read]
    rw [if_neg (by omega)]
    exact ih h.2

/-- Two canonical lists that read the same everywhere are the same list. -/
theorem Memory.ext_of_wfFrom {lo lo' n n' : Nat} {m m' : Memory} (h : Memory.wfFrom lo n m = true)
    (h' : Memory.wfFrom lo' n' m' = true) (hr : ∀ a, m.read a = m'.read a) : m = m' := by
  induction m generalizing lo lo' m' with
  | nil =>
    cases m' with
    | nil => rfl
    | cons c rest =>
      obtain ⟨b, v⟩ := c
      simp only [Memory.wfFrom, Bool.and_eq_true, decide_eq_true_eq] at h'
      exact absurd (by simpa [Memory.read] using (hr b).symm) h'.1.2
  | cons c rest ih =>
    obtain ⟨b, v⟩ := c
    have hw := h
    simp only [Memory.wfFrom, Bool.and_eq_true, decide_eq_true_eq] at hw
    cases m' with
    | nil => exact absurd (by simpa [Memory.read] using hr b) hw.1.2
    | cons c' rest' =>
      obtain ⟨b', v'⟩ := c'
      have hw' := h'
      simp only [Memory.wfFrom, Bool.and_eq_true, decide_eq_true_eq] at hw'
      have hb : b = b' := by
        rcases Nat.lt_trichotomy b b' with hlt | heq | hgt
        · have := hr b
          simp only [Memory.read, if_true] at this
          rw [if_neg (by omega), Memory.read_below hw'.2 (by omega)] at this
          exact absurd this hw.1.2
        · exact heq
        · have := hr b'
          simp only [Memory.read, if_true] at this
          rw [if_neg (by omega), Memory.read_below hw.2 (by omega)] at this
          exact absurd this.symm hw'.1.2
      subst hb
      have hv : v = v' := by simpa [Memory.read] using hr b
      subst hv
      have : rest = rest' := by
        refine ih hw.2 hw'.2 fun a => ?_
        by_cases hab : a = b
        · subst hab
          rw [Memory.read_below hw.2 (by omega), Memory.read_below hw'.2 (by omega)]
        · have := hr a
          simpa [Memory.read, hab] using this
      rw [this]

/-- A list of written bytes stays inside the buffer and keeps the canonical form. -/
theorem Memory.wf_putBytes {n : Nat} {m : Memory} (a : Nat) (bs : List Byte) (h : m.wf n = true) :
    (Memory.putBytes n m a bs).wf n = true := by
  induction bs generalizing m a with
  | nil => exact h
  | cons b bs ih =>
    simp only [Memory.putBytes]
    split
    · next ha => exact ih _ (Memory.wf_write b h ha)
    · exact ih _ h

/-- Writing bytes from `a` up leaves the addresses below `a` alone. -/
theorem Memory.read_putBytes_below {n : Nat} {m : Memory} {a c : Nat} (bs : List Byte) (hc : c < a) :
    (Memory.putBytes n m a bs).read c = m.read c := by
  induction bs generalizing m a with
  | nil => rfl
  | cons b bs ih =>
    simp only [Memory.putBytes]
    rw [ih (by omega)]
    split
    · exact Memory.read_write_ne m b (by omega)
    · rfl

/-- Each of the written bytes that lies in the buffer is read back. -/
theorem Memory.read_putBytes {n : Nat} {m : Memory} {a k : Nat} {bs : List Byte} {b : Byte}
    (h : m.wf n = true) (hb : bs[k]? = some b) (hk : a + k < n) :
    (Memory.putBytes n m a bs).read (a + k) = b := by
  induction bs generalizing m a k with
  | nil => simp at hb
  | cons c bs ih =>
    simp only [Memory.putBytes]
    rw [if_pos (by omega)]
    cases k with
    | zero =>
      simp only [List.getElem?_cons_zero, Option.some.injEq] at hb
      subst hb
      rw [Nat.add_zero, Memory.read_putBytes_below _ (by omega)]
      exact Memory.read_write_self h a _
    | succ k =>
      simp only [List.getElem?_cons_succ] at hb
      have := ih (m := m.write a c) (a := a + 1) (Memory.wf_write c h (by omega)) hb (by omega)
      rwa [show a + (k + 1) = a + 1 + k by omega]

/-! ### Two-byte values -/

theorem Memory.readLE_one (m : Memory) (a : Nat) : m.readLE a 1 = (m.read a).toNat := by
  simp [Memory.readLE]

theorem Memory.readLE_two (m : Memory) (a : Nat) :
    m.readLE a 2 = (m.read a).toNat + 256 * (m.read (a + 1)).toNat := by
  simp [Memory.readLE]

/-- The two writes of a 2-byte store: the low byte at `a`, then the high byte at `a + 1`. -/
theorem Memory.writeLE_two (m : Memory) (a : Nat) (v : Word) :
    m.writeLE a 2 v.toNat = (m.write a (lo8 v)).write (a + 1) (hi8 v) := by
  have : BitVec.ofNat 8 (v.toNat / 256 % 256) = hi8 v := by
    apply BitVec.eq_of_toNat_eq
    have := v.isLt
    rw [hi8_toNat, BitVec.toNat_ofNat]
    omega
  simp [Memory.writeLE, lo8, this]

/-- Everything a 2-byte store does to a canonical buffer. -/
theorem Memory.writeLE_two_spec {n a : Nat} {m : Memory} (v : Word) (h : m.wf n = true)
    (ha : a + 2 ≤ n) :
    (m.writeLE a 2 v.toNat).wf n = true ∧ (m.writeLE a 2 v.toNat).read a = lo8 v ∧
      (m.writeLE a 2 v.toNat).read (a + 1) = hi8 v := by
  rw [Memory.writeLE_two]
  have h1 := Memory.wf_write (lo8 v) h (a := a) (by omega)
  refine ⟨Memory.wf_write _ h1 (by omega), ?_, Memory.read_write_self h1 _ _⟩
  rw [Memory.read_write_ne _ _ (by omega)]
  exact Memory.read_write_self h _ _

/-- A 2-byte store leaves every other address alone. -/
theorem Memory.read_writeLE_two_ne (m : Memory) {a b : Nat} (v : Word) (h0 : b ≠ a) (h1 : b ≠ a + 1) :
    (m.writeLE a 2 v.toNat).read b = m.read b := by
  rw [Memory.writeLE_two, Memory.read_write_ne _ _ h1, Memory.read_write_ne _ _ h0]

theorem Memory.slice_length (m : Memory) (a n : Nat) : (m.slice a n).length = n := by
  induction n generalizing a with
  | zero => rfl
  | succ n ih => simp [Memory.slice, ih]

end Sys2Proof.Machine
end

