-- ==== Sys2Proof/Laws/State.lean ====
section
/-! SUPPORT. One lemma per field per update of State, and what an update does to a register, to the pc and
to a byte of memory. -/

namespace Sys2Proof.Machine

variable (s : State)

/-! ### setReg -/
@[simp] theorem State.setReg_cfg (r : Nat) (v : Word) : (s.setReg r v).cfg = s.cfg := rfl
@[simp] theorem State.setReg_regs (r : Nat) (v : Word) : (s.setReg r v).regs = s.regs.set r v := rfl
@[simp] theorem State.setReg_mem (r : Nat) (v : Word) : (s.setReg r v).mem = s.mem := rfl
@[simp] theorem State.setReg_status (r : Nat) (v : Word) : (s.setReg r v).status = s.status := rfl
@[simp] theorem State.setReg_steps (r : Nat) (v : Word) : (s.setReg r v).steps = s.steps := rfl

/-! ### setPc -/
@[simp] theorem State.setPc_cfg (v : Word) : (s.setPc v).cfg = s.cfg := rfl
@[simp] theorem State.setPc_regs (v : Word) : (s.setPc v).regs = s.regs.set 0 v := rfl
@[simp] theorem State.setPc_mem (v : Word) : (s.setPc v).mem = s.mem := rfl
@[simp] theorem State.setPc_status (v : Word) : (s.setPc v).status = s.status := rfl
@[simp] theorem State.setPc_steps (v : Word) : (s.setPc v).steps = s.steps := rfl

/-! ### setMem -/
@[simp] theorem State.setMem_cfg (m : Memory) : (s.setMem m).cfg = s.cfg := rfl
@[simp] theorem State.setMem_regs (m : Memory) : (s.setMem m).regs = s.regs := rfl
@[simp] theorem State.setMem_mem (m : Memory) : (s.setMem m).mem = m := rfl
@[simp] theorem State.setMem_status (m : Memory) : (s.setMem m).status = s.status := rfl
@[simp] theorem State.setMem_steps (m : Memory) : (s.setMem m).steps = s.steps := rfl

/-! ### setStatus -/
@[simp] theorem State.setStatus_cfg (st : RunStatus) : (s.setStatus st).cfg = s.cfg := rfl
@[simp] theorem State.setStatus_regs (st : RunStatus) : (s.setStatus st).regs = s.regs := rfl
@[simp] theorem State.setStatus_mem (st : RunStatus) : (s.setStatus st).mem = s.mem := rfl
@[simp] theorem State.setStatus_status (st : RunStatus) : (s.setStatus st).status = st := rfl
@[simp] theorem State.setStatus_steps (st : RunStatus) : (s.setStatus st).steps = s.steps := rfl

/-! ### countStep -/
@[simp] theorem State.countStep_cfg : s.countStep.cfg = s.cfg := rfl
@[simp] theorem State.countStep_regs : s.countStep.regs = s.regs := rfl
@[simp] theorem State.countStep_mem : s.countStep.mem = s.mem := rfl
@[simp] theorem State.countStep_status : s.countStep.status = s.status := rfl
@[simp] theorem State.countStep_steps : s.countStep.steps = s.steps + 1 := rfl

/-! ### advance -/
@[simp] theorem State.advance_cfg (w : Nat) : (s.advance w).cfg = s.cfg := rfl
@[simp] theorem State.advance_mem (w : Nat) : (s.advance w).mem = s.mem := rfl
@[simp] theorem State.advance_status (w : Nat) : (s.advance w).status = s.status := rfl
@[simp] theorem State.advance_steps (w : Nat) : (s.advance w).steps = s.steps := rfl

/-! ### transfer -/
@[simp] theorem State.transfer_cfg (b : Bool) (a : Byte) (w : Nat) : (s.transfer b a w).cfg = s.cfg := by
  cases b <;> rfl
@[simp] theorem State.transfer_mem (b : Bool) (a : Byte) (w : Nat) : (s.transfer b a w).mem = s.mem := by
  cases b <;> rfl
@[simp] theorem State.transfer_status (b : Bool) (a : Byte) (w : Nat) :
    (s.transfer b a w).status = s.status := by
  cases b <;> rfl
@[simp] theorem State.transfer_steps (b : Bool) (a : Byte) (w : Nat) :
    (s.transfer b a w).steps = s.steps := by
  cases b <;> rfl

/-! ### raise -/
@[simp] theorem State.raise_cfg (k : ErrorKind) : (s.raise k).cfg = s.cfg := rfl
@[simp] theorem State.raise_regs (k : ErrorKind) : (s.raise k).regs = s.regs := rfl
@[simp] theorem State.raise_mem (k : ErrorKind) : (s.raise k).mem = s.mem := rfl
@[simp] theorem State.raise_status (k : ErrorKind) : (s.raise k).status = .error k s.pc := rfl
@[simp] theorem State.raise_steps (k : ErrorKind) : (s.raise k).steps = s.steps := rfl

/-! ### Registers and the pc after an update -/

theorem State.reg_setReg (r q : Nat) (v : Word) :
    (s.setReg r v).reg q = if q = r ∧ r < s.regs.length then v else s.reg q := by
  simp only [State.reg, State.setReg_regs, List.getD_eq_getElem?_getD, List.getElem?_set]
  by_cases hq : r = q
  · subst hq
    by_cases hl : r < s.regs.length
    · simp [hl]
    · simp [hl]
  · have : ¬ q = r := fun h => hq h.symm
    simp [hq, this]

theorem State.reg_setPc (q : Nat) (v : Word) :
    (s.setPc v).reg q = if q = 0 ∧ 0 < s.regs.length then v else s.reg q :=
  s.reg_setReg 0 q v

theorem State.reg_setPc_ne {q : Nat} (v : Word) (h : q ≠ 0) : (s.setPc v).reg q = s.reg q := by
  simp [State.reg_setPc, h]

theorem State.pc_setPc (v : Word) (h : 0 < s.regs.length) : (s.setPc v).pc = v := by
  simp [State.pc, State.reg_setPc, h]

theorem State.pc_setReg_ne {r : Nat} (v : Word) (h : r ≠ 0) : (s.setReg r v).pc = s.pc := by
  have : ¬ (0 = r ∧ r < s.regs.length) := by omega
  simp only [State.pc, State.reg_setReg, if_neg this]

theorem State.pc_setReg_zero (v : Word) (h : 0 < s.regs.length) : (s.setReg 0 v).pc = v :=
  s.pc_setPc v h

@[simp] theorem State.reg_setMem (m : Memory) (q : Nat) : (s.setMem m).reg q = s.reg q := rfl
@[simp] theorem State.reg_setStatus (st : RunStatus) (q : Nat) : (s.setStatus st).reg q = s.reg q := rfl
@[simp] theorem State.reg_countStep (q : Nat) : s.countStep.reg q = s.reg q := rfl
@[simp] theorem State.reg_raise (k : ErrorKind) (q : Nat) : (s.raise k).reg q = s.reg q := rfl
@[simp] theorem State.pc_setMem (m : Memory) : (s.setMem m).pc = s.pc := rfl
@[simp] theorem State.pc_setStatus (st : RunStatus) : (s.setStatus st).pc = s.pc := rfl
@[simp] theorem State.pc_countStep : s.countStep.pc = s.pc := rfl
@[simp] theorem State.pc_raise (k : ErrorKind) : (s.raise k).pc = s.pc := rfl

theorem State.reg_advance_ne {q : Nat} (w : Nat) (h : q ≠ 0) : (s.advance w).reg q = s.reg q :=
  s.reg_setPc_ne _ h

theorem State.reg_transfer_ne {q : Nat} (b : Bool) (a : Byte) (w : Nat) (h : q ≠ 0) :
    (s.transfer b a w).reg q = s.reg q := by
  cases b
  · exact s.reg_advance_ne w h
  · exact s.reg_setPc_ne _ h

@[simp] theorem State.length_setReg (r : Nat) (v : Word) : (s.setReg r v).regs.length = s.regs.length := by
  simp

@[simp] theorem State.length_setPc (v : Word) : (s.setPc v).regs.length = s.regs.length := by simp

@[simp] theorem State.length_advance (w : Nat) : (s.advance w).regs.length = s.regs.length :=
  s.length_setPc _

@[simp] theorem State.length_transfer (b : Bool) (a : Byte) (w : Nat) :
    (s.transfer b a w).regs.length = s.regs.length := by
  cases b
  · exact s.length_advance w
  · exact s.length_setPc _

/-! ### Bytes of memory after an update -/

@[simp] theorem State.byteAt_setReg (r : Nat) (v : Word) (a : Nat) :
    (s.setReg r v).byteAt a = s.byteAt a := rfl
@[simp] theorem State.byteAt_setPc (v : Word) (a : Nat) : (s.setPc v).byteAt a = s.byteAt a := rfl
@[simp] theorem State.byteAt_setMem (m : Memory) (a : Nat) : (s.setMem m).byteAt a = m.read a := rfl
@[simp] theorem State.byteAt_setStatus (st : RunStatus) (a : Nat) :
    (s.setStatus st).byteAt a = s.byteAt a := rfl
@[simp] theorem State.byteAt_countStep (a : Nat) : s.countStep.byteAt a = s.byteAt a := rfl
@[simp] theorem State.byteAt_raise (k : ErrorKind) (a : Nat) : (s.raise k).byteAt a = s.byteAt a := rfl
@[simp] theorem State.byteAt_advance (w a : Nat) : (s.advance w).byteAt a = s.byteAt a := rfl
@[simp] theorem State.byteAt_transfer (b : Bool) (x : Byte) (w a : Nat) :
    (s.transfer b x w).byteAt a = s.byteAt a := by
  cases b <;> rfl

/-! ### The start of a run -/

@[simp] theorem State.startRun_cfg (c : Config) (m : Memory) : (State.startRun c m).cfg = c := rfl
@[simp] theorem State.startRun_mem (c : Config) (m : Memory) : (State.startRun c m).mem = m := rfl
@[simp] theorem State.startRun_status (c : Config) (m : Memory) :
    (State.startRun c m).status = .running := rfl
@[simp] theorem State.startRun_steps (c : Config) (m : Memory) : (State.startRun c m).steps = 0 := rfl
@[simp] theorem State.length_startRun (c : Config) (m : Memory) :
    (State.startRun c m).regs.length = c.numRegs := by
  simp [State.startRun]

end Sys2Proof.Machine
end

