-- ==== Sys2Proof/Laws/Ops.lean ====
section
/-! SUPPORT. One lemma per shared operation that says everything it can do; the meanings of the instructions
on valid operands; and the inversion of `exec`. -/

namespace Sys2Proof.Machine

variable {s t : State}

/-! ### The pc -/

theorem State.pc_advance (w : Nat) (h : 0 < s.regs.length) : (s.advance w).pc = s.pc + BitVec.ofNat 16 w := by
  rw [State.advance, s.pc_setPc _ h]
  apply BitVec.eq_of_toNat_eq
  have := wrap16_toNat ((s.pc.toNat : Int) + w)
  simp only [BitVec.toNat_add, BitVec.toNat_ofNat]
  omega

theorem targetPc_toNat (a : Byte) : (targetPc a).toNat = a.toNat := by
  have := a.isLt
  simp only [targetPc, BitVec.toNat_ofNat]
  omega

theorem State.pc_transfer_taken (a : Byte) (w : Nat) (h : 0 < s.regs.length) :
    (s.transfer true a w).pc = targetPc a :=
  s.pc_setPc _ h

theorem State.pc_transfer_not_taken (a : Byte) (w : Nat) (h : 0 < s.regs.length) :
    (s.transfer false a w).pc = s.pc + BitVec.ofNat 16 w :=
  State.pc_advance w h

theorem State.WF.length_pos (h : s.WF) : 0 < s.regs.length := by
  have := Config.legal_bounds h.legal
  rw [h.regs]
  omega

/-- The address of an instruction is the pc's own value when it is not negative. -/
theorem State.instrAddr_eq (h0 : 0 ≤ s.instrAddr) : s.instrAddr = s.pc.toNat := by
  have := s.pc.isLt
  unfold State.instrAddr sint16 at *
  split at h0 <;> omega

/-! ### Bounds-checked access -/

theorem State.memRead_ok {a n : Nat} (h : a + n ≤ s.memSize) : s.memRead a n = .ok (s.mem.readLE a n) := by
  unfold State.memRead
  rw [if_neg (by omega)]
  rfl

theorem State.memRead_error {a : Int} {n : Nat} (h : a < 0 ∨ a + n > s.memSize) :
    s.memRead a n = .error .outOfBoundsAccess := by
  unfold State.memRead
  rw [if_pos h]

theorem State.memWrite_ok {a n : Nat} (v : Word) (h : a + n ≤ s.memSize) :
    s.memWrite a n v = .ok (s.setMem (s.mem.writeLE a n v.toNat)) := by
  unfold State.memWrite
  rw [if_neg (by omega)]
  rfl

theorem State.memWrite_error {a : Int} {n : Nat} (v : Word) (h : a < 0 ∨ a + n > s.memSize) :
    s.memWrite a n v = .error .outOfBoundsAccess := by
  unfold State.memWrite
  rw [if_pos h]

theorem State.fetch8_ok {a : Nat} (h : a < s.memSize) : s.fetch8 a = .ok (s.byteAt a) := by
  unfold State.fetch8
  rw [State.memRead_ok (by omega), Memory.readLE_one]
  simp only [Except.map, State.byteAt, BitVec.ofNat_toNat, BitVec.setWidth_eq]

theorem State.fetch8_error {a : Int} (h : a < 0 ∨ a ≥ s.memSize) :
    s.fetch8 a = .error .outOfBoundsAccess := by
  unfold State.fetch8
  rw [State.memRead_error (by omega)]
  rfl

/-! ### Register operands and the shared shape of an instruction -/

theorem State.checkRegs_ok {rs : List Byte} (h : ∀ r ∈ rs, s.cfg.validReg r = true) :
    s.checkRegs rs = .ok () := by
  induction rs with
  | nil => rfl
  | cons r rs ih =>
    simp only [State.checkRegs, h r (by simp), if_true]
    exact ih fun q hq => h q (by simp [hq])

theorem State.checkRegs_error {rs : List Byte} {r : Byte} (hr : r ∈ rs) (h : s.cfg.validReg r = false) :
    s.checkRegs rs = .error .invalidRegisterIndex := by
  induction rs with
  | nil => simp at hr
  | cons q rs ih =>
    simp only [State.checkRegs]
    split
    · next hq =>
      rcases List.mem_cons.mp hr with rfl | hr
      · simp [h] at hq
      · exact ih hr
    · rfl

theorem State.execute_invalid {rs : List Byte} {op : State → Except ErrorKind State} {r : Byte}
    (hr : r ∈ rs) (h : s.cfg.validReg r = false) :
    s.execute rs op = .next (s.raise .invalidRegisterIndex) := by
  simp only [State.execute, State.checkRegs_error hr h]

theorem State.execute_valid {rs : List Byte} {op : State → Except ErrorKind State}
    (h : ∀ r ∈ rs, s.cfg.validReg r = true) : s.execute rs op = s.finish (op s) := by
  simp only [State.execute, State.checkRegs_ok h]

/-- Everything `execute` can do: a register operand is not valid, the operation reports an error, or the
operation's result is counted. -/
theorem State.execute_cases (rs : List Byte) (op : State → Except ErrorKind State)
    (h : s.execute rs op = .next t) :
    (∃ r ∈ rs, s.cfg.validReg r = false ∧ t = s.raise .invalidRegisterIndex) ∨
    ((∀ r ∈ rs, s.cfg.validReg r = true) ∧
      ((∃ k, op s = .error k ∧ t = s.raise k) ∨ (∃ u, op s = .ok u ∧ t = u.countStep))) := by
  by_cases hv : ∀ r ∈ rs, s.cfg.validReg r = true
  · refine .inr ⟨hv, ?_⟩
    rw [State.execute_valid hv] at h
    cases ho : op s with
    | error k =>
      rw [ho] at h
      exact .inl ⟨k, rfl, by simpa [State.finish] using h.symm⟩
    | ok u =>
      rw [ho] at h
      exact .inr ⟨u, rfl, by simpa [State.finish] using h.symm⟩
  · push Not at hv
    obtain ⟨r, hr, hf⟩ := hv
    have hf : s.cfg.validReg r = false := by simpa using hf
    rw [State.execute_invalid hr hf] at h
    exact .inl ⟨r, hr, hf, by simpa using h.symm⟩

/-! ### The state each instruction completes in, on valid operands -/

theorem execLoad_ok {r a : Byte} (hr : s.cfg.validReg r = true) (ha : a.toNat + 2 ≤ s.memSize) :
    exec (.load r a) s =
      .next (((s.setReg r.toNat (BitVec.ofNat 16 (s.mem.readLE a.toNat 2))).advance 3).countStep) := by
  show execLoad r a s = _
  rw [execLoad, State.execute_valid (by simpa using hr), effAddr, State.memRead_ok ha]
  simp only [State.finish, State.writeReg, wrap16_natCast]

theorem execLoad_oob {r a : Byte} (hr : s.cfg.validReg r = true) (ha : s.memSize < a.toNat + 2) :
    exec (.load r a) s = .next (s.raise .outOfBoundsAccess) := by
  show execLoad r a s = _
  rw [execLoad, State.execute_valid (by simpa using hr), effAddr, State.memRead_error (by omega)]
  rfl

theorem execStore_ok {r a : Byte} (hr : s.cfg.validReg r = true) (ha : a.toNat + 2 ≤ s.memSize) :
    exec (.store r a) s =
      .next (((s.setMem (s.mem.writeLE a.toNat 2 (s.reg r.toNat).toNat)).advance 3).countStep) := by
  show execStore r a s = _
  rw [execStore, State.execute_valid (by simpa using hr), effAddr, State.memWrite_ok _ ha]
  rfl

theorem execStore_oob {r a : Byte} (hr : s.cfg.validReg r = true) (ha : s.memSize < a.toNat + 2) :
    exec (.store r a) s = .next (s.raise .outOfBoundsAccess) := by
  show execStore r a s = _
  rw [execStore, State.execute_valid (by simpa using hr), effAddr, State.memWrite_error _ (by omega)]
  rfl

theorem execAdd_ok {d r : Byte} (hd : s.cfg.validReg d = true) (hr : s.cfg.validReg r = true) :
    exec (.add d r) s =
      .next (((s.setReg d.toNat (s.reg d.toNat + s.reg r.toNat)).advance 3).countStep) := by
  show execAdd d r s = _
  rw [execAdd, State.execute_valid (by simp [hd, hr]), wrapAdd_eq_add]
  rfl

theorem execSub_ok {d r : Byte} (hd : s.cfg.validReg d = true) (hr : s.cfg.validReg r = true) :
    exec (.sub d r) s =
      .next (((s.setReg d.toNat (s.reg d.toNat - s.reg r.toNat)).advance 3).countStep) := by
  show execSub d r s = _
  rw [execSub, State.execute_valid (by simp [hd, hr]), wrapSub_eq_sub]
  rfl

theorem execAddi_ok {r : Byte} (hr : s.cfg.validReg r = true) :
    exec (.addi r) s = .next (((s.setReg r.toNat (s.reg r.toNat + 1)).advance 2).countStep) := by
  show execAddi r s = _
  rw [execAddi, State.execute_valid (by simpa using hr), wrapInc_eq_add_one]
  rfl

theorem execSubi_ok {r : Byte} (hr : s.cfg.validReg r = true) :
    exec (.subi r) s = .next (((s.setReg r.toNat (s.reg r.toNat - 1)).advance 2).countStep) := by
  show execSubi r s = _
  rw [execSubi, State.execute_valid (by simpa using hr), wrapDec_eq_sub_one]
  rfl

theorem execJump_ok (a : Byte) : exec (.jump a) s = .next ((s.transfer true a 2).countStep) := rfl

theorem execBeq_ok {i j : Byte} (a : Byte) (hi : s.cfg.validReg i = true) (hj : s.cfg.validReg j = true) :
    exec (.beq i j a) s =
      .next ((s.transfer (s.reg i.toNat == s.reg j.toNat) a 4).countStep) := by
  show execBeq i j a s = _
  rw [execBeq, State.execute_valid (by simp [hi, hj])]
  rfl

theorem execBeqz_ok (a : Byte) :
    exec (.beqz a) s = .next ((s.transfer (s.reg 1 == 0) a 2).countStep) := rfl

theorem execHalt_ok : exec .halt s = .next ((s.setStatus .halted).countStep) := rfl

/-! ### A written destination register -/

/-- A general destination register holds the written value, and the pc has advanced by the width. -/
theorem State.destination {r : Byte} (v : Word) (w : Nat) (h : s.WF) (hr : s.cfg.validReg r = true)
    (hr0 : r.toNat ≠ 0) :
    (((s.setReg r.toNat v).advance w).countStep).reg r.toNat = v ∧
      (((s.setReg r.toNat v).advance w).countStep).pc = s.pc + BitVec.ofNat 16 w := by
  have hlt := Config.lt_of_validReg hr
  have hlen := h.regs
  have hpos := h.length_pos
  constructor
  · rw [State.reg_countStep, State.reg_advance_ne _ _ hr0, State.reg_setReg, if_pos ⟨rfl, by omega⟩]
  · rw [State.pc_countStep, State.pc_advance _ (by rw [State.length_setReg]; exact hpos),
      State.pc_setReg_ne _ _ hr0]

/-- Destination register 0 (`AliasPc`): the written value plus the width is the next pc (R90). -/
theorem State.destination_zero (v : Word) (w : Nat) (h : s.WF) :
    (((s.setReg 0 v).advance w).countStep).pc = v + BitVec.ofNat 16 w := by
  have hpos := h.length_pos
  rw [State.pc_countStep, State.pc_advance _ (by rw [State.length_setReg]; exact hpos),
    State.pc_setReg_zero _ _ hpos]

/-- No register but the pc and the destination changes. -/
theorem State.reg_destination_ne {r q : Nat} (v : Word) (w : Nat) (hq : q ≠ 0) (hqr : q ≠ r) :
    (((s.setReg r v).advance w).countStep).reg q = s.reg q := by
  rw [State.reg_countStep, State.reg_advance_ne _ _ hq, State.reg_setReg, if_neg (fun h => hqr h.1)]

/-! ### The inversion of `exec` -/

/-- R142: an instruction with a register operand that is not valid raises, whatever else is wrong. -/
theorem exec_invalid {i : Instr} {r : Byte} (hr : r ∈ i.regOperands) (h : s.cfg.validReg r = false) :
    exec i s = .next (s.raise .invalidRegisterIndex) := by
  cases i <;> simp only [exec, execLoad, execStore, execAdd, execSub, execAddi, execSubi, execBeq] <;>
    exact State.execute_invalid hr h

/-- The inversion of `exec`: every instruction answers a next state, which is an error of the step (an
operand that is not valid, or a data access outside the buffer) or the state it completes in. -/
theorem exec_cases (i : Instr) (s : State) :
    (∃ r ∈ i.regOperands, s.cfg.validReg r = false ∧ exec i s = .next (s.raise .invalidRegisterIndex)) ∨
    ((∀ r ∈ i.regOperands, s.cfg.validReg r = true) ∧
      ((∃ r a, (i = .load r a ∨ i = .store r a) ∧ s.memSize < a.toNat + 2 ∧
        exec i s = .next (s.raise .outOfBoundsAccess)) ∨
      (∃ r a, i = .load r a ∧ a.toNat + 2 ≤ s.memSize ∧ exec i s =
        .next (((s.setReg r.toNat (BitVec.ofNat 16 (s.mem.readLE a.toNat 2))).advance 3).countStep)) ∨
      (∃ r a, i = .store r a ∧ a.toNat + 2 ≤ s.memSize ∧ exec i s =
        .next (((s.setMem (s.mem.writeLE a.toNat 2 (s.reg r.toNat).toNat)).advance 3).countStep)) ∨
      (∃ d v w, (i.regOperands = [d] ∨ ∃ r, i.regOperands = [d, r]) ∧ w = i.width ∧
        (i = .addi d ∨ i = .subi d ∨ ∃ r, i = .add d r ∨ i = .sub d r) ∧
        exec i s = .next (((s.setReg d.toNat v).advance w).countStep)) ∨
      (∃ b a w, w = i.width ∧ (i = .jump a ∧ b = true ∨ i = .beqz a ∨ ∃ r q, i = .beq r q a) ∧
        exec i s = .next ((s.transfer b a w).countStep)) ∨
      (i = .halt ∧ exec i s = .next ((s.setStatus .halted).countStep)))) := by
  by_cases hv : ∀ r ∈ i.regOperands, s.cfg.validReg r = true
  · refine .inr ⟨hv, ?_⟩
    cases i with
    | load r a =>
      have hr := hv r (by simp [Instr.regOperands])
      rcases Nat.lt_or_ge s.memSize (a.toNat + 2) with ha | ha
      · exact .inl ⟨r, a, .inl rfl, ha, execLoad_oob hr ha⟩
      · exact .inr (.inl ⟨r, a, rfl, ha, execLoad_ok hr ha⟩)
    | store r a =>
      have hr := hv r (by simp [Instr.regOperands])
      rcases Nat.lt_or_ge s.memSize (a.toNat + 2) with ha | ha
      · exact .inl ⟨r, a, .inr rfl, ha, execStore_oob hr ha⟩
      · exact .inr (.inr (.inl ⟨r, a, rfl, ha, execStore_ok hr ha⟩))
    | add d r =>
      exact .inr (.inr (.inr (.inl ⟨d, _, _, .inr ⟨r, rfl⟩, rfl, .inr (.inr ⟨r, .inl rfl⟩),
        execAdd_ok (hv d (by simp [Instr.regOperands])) (hv r (by simp [Instr.regOperands]))⟩)))
    | sub d r =>
      exact .inr (.inr (.inr (.inl ⟨d, _, _, .inr ⟨r, rfl⟩, rfl, .inr (.inr ⟨r, .inr rfl⟩),
        execSub_ok (hv d (by simp [Instr.regOperands])) (hv r (by simp [Instr.regOperands]))⟩)))
    | addi d =>
      exact .inr (.inr (.inr (.inl ⟨d, _, _, .inl rfl, rfl, .inl rfl,
        execAddi_ok (hv d (by simp [Instr.regOperands]))⟩)))
    | subi d =>
      exact .inr (.inr (.inr (.inl ⟨d, _, _, .inl rfl, rfl, .inr (.inl rfl),
        execSubi_ok (hv d (by simp [Instr.regOperands]))⟩)))
    | jump a =>
      exact .inr (.inr (.inr (.inr (.inl ⟨true, a, _, rfl, .inl ⟨rfl, rfl⟩, execJump_ok a⟩))))
    | beq r q a =>
      exact .inr (.inr (.inr (.inr (.inl ⟨_, a, _, rfl, .inr (.inr ⟨r, q, rfl⟩),
        execBeq_ok a (hv r (by simp [Instr.regOperands])) (hv q (by simp [Instr.regOperands]))⟩))))
    | beqz a =>
      exact .inr (.inr (.inr (.inr (.inl ⟨_, a, _, rfl, .inr (.inl rfl), execBeqz_ok a⟩))))
    | halt => exact .inr (.inr (.inr (.inr (.inr ⟨rfl, execHalt_ok⟩))))
  · push Not at hv
    obtain ⟨r, hr, hf⟩ := hv
    have hf : s.cfg.validReg r = false := by simpa using hf
    exact .inl ⟨r, hr, hf, exec_invalid hr hf⟩

end Sys2Proof.Machine
end

