-- ==== Sys2Proof/Laws/PerInstr.lean ====
section
/-! SUPPORT. Statements made of every instruction as syntax, one lemma per constructor.
`EncodingShape`: the encoding is the opcode byte and then one byte for each operand, as long as the width
says (R60, R65). `OperandOrder`: the operand bytes split back into the instruction (R61, R62). -/

/-- The encoding of `i` begins with its opcode byte and has its width in bytes. -/
def Sys2Proof.Laws.EncodingShape.Statement (i : Sys2Proof.Instr) : Prop :=
  ∀ om : Sys2Proof.OpcodeMap, (Sys2Proof.encode om i).head? = some (om.byte i.mnemonic) ∧
    (Sys2Proof.encode om i).length = i.width

theorem Sys2Proof.Laws.EncodingShape.load (reg addr : Sys2Proof.Byte) :
    Sys2Proof.Laws.EncodingShape.Statement (.load reg addr) := fun _ => ⟨rfl, rfl⟩

theorem Sys2Proof.Laws.EncodingShape.store (reg addr : Sys2Proof.Byte) :
    Sys2Proof.Laws.EncodingShape.Statement (.store reg addr) := fun _ => ⟨rfl, rfl⟩

theorem Sys2Proof.Laws.EncodingShape.add (reg1 reg2 : Sys2Proof.Byte) :
    Sys2Proof.Laws.EncodingShape.Statement (.add reg1 reg2) := fun _ => ⟨rfl, rfl⟩

theorem Sys2Proof.Laws.EncodingShape.sub (reg1 reg2 : Sys2Proof.Byte) :
    Sys2Proof.Laws.EncodingShape.Statement (.sub reg1 reg2) := fun _ => ⟨rfl, rfl⟩

theorem Sys2Proof.Laws.EncodingShape.addi (reg : Sys2Proof.Byte) :
    Sys2Proof.Laws.EncodingShape.Statement (.addi reg) := fun _ => ⟨rfl, rfl⟩

theorem Sys2Proof.Laws.EncodingShape.subi (reg : Sys2Proof.Byte) :
    Sys2Proof.Laws.EncodingShape.Statement (.subi reg) := fun _ => ⟨rfl, rfl⟩

theorem Sys2Proof.Laws.EncodingShape.jump (addr : Sys2Proof.Byte) :
    Sys2Proof.Laws.EncodingShape.Statement (.jump addr) := fun _ => ⟨rfl, rfl⟩

theorem Sys2Proof.Laws.EncodingShape.beq (reg1 reg2 addr : Sys2Proof.Byte) :
    Sys2Proof.Laws.EncodingShape.Statement (.beq reg1 reg2 addr) := fun _ => ⟨rfl, rfl⟩

theorem Sys2Proof.Laws.EncodingShape.beqz (addr : Sys2Proof.Byte) :
    Sys2Proof.Laws.EncodingShape.Statement (.beqz addr) := fun _ => ⟨rfl, rfl⟩

theorem Sys2Proof.Laws.EncodingShape.halt :
    Sys2Proof.Laws.EncodingShape.Statement .halt := fun _ => ⟨rfl, rfl⟩

/-- The operands of `i`, in the order of the encoding, are read back as `i`, whatever follows them. -/
def Sys2Proof.Laws.OperandOrder.Statement (i : Sys2Proof.Instr) : Prop :=
  ∀ rest : List Sys2Proof.Byte,
    Sys2Proof.decodeOperands i.mnemonic (i.operands ++ rest) = some (i, rest)

theorem Sys2Proof.Laws.OperandOrder.load (reg addr : Sys2Proof.Byte) :
    Sys2Proof.Laws.OperandOrder.Statement (.load reg addr) := fun _ => rfl

theorem Sys2Proof.Laws.OperandOrder.store (reg addr : Sys2Proof.Byte) :
    Sys2Proof.Laws.OperandOrder.Statement (.store reg addr) := fun _ => rfl

theorem Sys2Proof.Laws.OperandOrder.add (reg1 reg2 : Sys2Proof.Byte) :
    Sys2Proof.Laws.OperandOrder.Statement (.add reg1 reg2) := fun _ => rfl

theorem Sys2Proof.Laws.OperandOrder.sub (reg1 reg2 : Sys2Proof.Byte) :
    Sys2Proof.Laws.OperandOrder.Statement (.sub reg1 reg2) := fun _ => rfl

theorem Sys2Proof.Laws.OperandOrder.addi (reg : Sys2Proof.Byte) :
    Sys2Proof.Laws.OperandOrder.Statement (.addi reg) := fun _ => rfl

theorem Sys2Proof.Laws.OperandOrder.subi (reg : Sys2Proof.Byte) :
    Sys2Proof.Laws.OperandOrder.Statement (.subi reg) := fun _ => rfl

theorem Sys2Proof.Laws.OperandOrder.jump (addr : Sys2Proof.Byte) :
    Sys2Proof.Laws.OperandOrder.Statement (.jump addr) := fun _ => rfl

theorem Sys2Proof.Laws.OperandOrder.beq (reg1 reg2 addr : Sys2Proof.Byte) :
    Sys2Proof.Laws.OperandOrder.Statement (.beq reg1 reg2 addr) := fun _ => rfl

theorem Sys2Proof.Laws.OperandOrder.beqz (addr : Sys2Proof.Byte) :
    Sys2Proof.Laws.OperandOrder.Statement (.beqz addr) := fun _ => rfl

theorem Sys2Proof.Laws.OperandOrder.halt :
    Sys2Proof.Laws.OperandOrder.Statement .halt := fun _ => rfl
end

