-- ==== Sys2Proof/Laws/Step.lean ====
section
/-! SUPPORT. What the fetch can answer, and the inversion of `step`. -/

namespace Sys2Proof.Machine

variable {s t : State}

theorem Memory.slice_succ (m : Memory) (a n : Nat) : m.slice a (n + 1) = m.read a :: m.slice (a + 1) n := rfl

theorem State.budgetSpent_iff : s.budgetSpent = true ↔ ∃ l, s.cfg.stepLimit = some l ∧ l ≤ s.steps := by
  unfold State.budgetSpent
  split <;> simp_all

theorem State.Ready.budgetSpent_eq (h : s.Ready) : s.budgetSpent = false := by
  by_contra hb
  obtain ⟨l, hl, hle⟩ := State.budgetSpent_iff.mp (by simpa using hb)
  have := h.budget l hl
  omega

theorem Mnemonic.one_le_width (m : Mnemonic) : 1 ≤ m.width := by
  cases m <;> decide

theorem Instr.one_le_width (i : Instr) : 1 ≤ i.width := Mnemonic.one_le_width i.mnemonic

/-- An instruction that stands at the pc is the one that is fetched, when the step budget is not spent. -/
theorem State.fetch_of_holds {i : Instr} (hl : s.cfg.legal = true) (hb : s.budgetSpent = false)
    (h : s.Holds i) : s.fetch = .ok i := by
  obtain ⟨low, high, bytes⟩ := h
  have hw := Instr.one_le_width i
  obtain ⟨p, hp⟩ : ∃ p : Nat, s.instrAddr = p := ⟨s.instrAddr.toNat, by omega⟩
  rw [hp, Int.toNat_natCast, show i.width = i.width - 1 + 1 by omega, Memory.slice_succ, encode,
    List.cons.injEq] at bytes
  have hop : s.byteAt p = s.cfg.opcodes.byte i.mnemonic := bytes.1
  have hopr := bytes.2
  unfold State.fetch
  rw [hb, hp, State.fetch8_ok (by omega), hop]
  simp only [Bool.false_eq_true, if_false, OpcodeMap.decodeOpcode_byte (Config.legal_injective hl)]
  unfold State.fetchOperands
  rw [if_neg (by have : i.width = i.mnemonic.width := rfl; omega), Int.toNat_natCast]
  have : s.mem.slice (p + 1) (i.mnemonic.width - 1) = i.operands ++ [] := by
    rw [List.append_nil]
    exact hopr
  rw [this, decodeOperands_operands]

/-- Everything the fetch can answer, in the order of R81. -/
theorem State.fetch_cases (s : State) :
    (s.budgetSpent = true ∧ s.fetch = .error .stepLimitExceeded) ∨
    (s.budgetSpent = false ∧
      (((s.instrAddr < 0 ∨ s.instrAddr ≥ s.memSize) ∧ s.fetch = .error .outOfBoundsAccess) ∨
      (0 ≤ s.instrAddr ∧ s.instrAddr < s.memSize ∧
        ((s.cfg.opcodes.decodeOpcode (s.byteAt s.instrAddr.toNat) = none ∧
          s.fetch = .error .unknownOpcode) ∨
        (∃ m, s.cfg.opcodes.decodeOpcode (s.byteAt s.instrAddr.toNat) = some m ∧
          ((s.instrAddr + m.width > s.memSize ∧ s.fetch = .error .outOfBoundsAccess) ∨
          (∃ i, i.mnemonic = m ∧ s.Holds i ∧ s.fetch = .ok i))))))) := by
  cases hb : s.budgetSpent with
  | true => exact .inl ⟨rfl, by simp [State.fetch, hb]⟩
  | false =>
    refine .inr ⟨rfl, ?_⟩
    by_cases hp : s.instrAddr < 0 ∨ s.instrAddr ≥ s.memSize
    · exact .inl ⟨hp, by simp [State.fetch, hb, State.fetch8_error hp]⟩
    · have h0 : 0 ≤ s.instrAddr := by omega
      have h1 : s.instrAddr < s.memSize := by omega
      refine .inr ⟨h0, h1, ?_⟩
      obtain ⟨p, hp⟩ : ∃ p : Nat, s.instrAddr = p := ⟨s.instrAddr.toNat, by omega⟩
      have hf : s.fetch8 s.instrAddr = .ok (s.byteAt s.instrAddr.toNat) := by
        rw [hp, Int.toNat_natCast]
        exact State.fetch8_ok (by omega)
      cases hd : s.cfg.opcodes.decodeOpcode (s.byteAt s.instrAddr.toNat) with
      | none => exact .inl ⟨rfl, by simp [State.fetch, hb, hf, hd]⟩
      | some m =>
        refine .inr ⟨m, rfl, ?_⟩
        have hfm : s.fetch = s.fetchOperands s.instrAddr m := by simp [State.fetch, hb, hf, hd]
        by_cases hw : s.instrAddr + m.width > s.memSize
        · exact .inl ⟨hw, by simp [hfm, State.fetchOperands, hw]⟩
        · obtain ⟨i, hi⟩ := decodeOperands_exact m (s.mem.slice (s.instrAddr.toNat + 1) (m.width - 1))
            (Memory.slice_length _ _ _)
          obtain ⟨hm, ho⟩ := decodeOperands_some hi
          refine .inr ⟨i, hm, ⟨h0, ?_, ?_⟩, by simp [hfm, State.fetchOperands, hw, hi]⟩
          · rw [Instr.width, hm]
            omega
          · have hw1 := Mnemonic.one_le_width m
            rw [Instr.width, hm, show m.width = m.width - 1 + 1 by omega, Memory.slice_succ, ho, encode, hm,
              List.append_nil, OpcodeMap.byte_of_decodeOpcode hd]
            rfl

/-- A step that is due runs the fetched instruction or raises the fetch's error. -/
theorem step_of_running (hl : s.cfg.legal = true) (hr : s.status = .running) :
    step s = match s.fetch with
      | .error k => .next (s.raise k)
      | .ok i    => exec i s := by
  cases hf : s.fetch <;> simp [step, hl, hr, hf]

theorem step_of_fetch_error {k : ErrorKind} (hl : s.cfg.legal = true) (hr : s.status = .running)
    (h : s.fetch = .error k) : step s = .next (s.raise k) := by
  rw [step_of_running hl hr, h]

theorem step_of_fetch_ok {i : Instr} (hl : s.cfg.legal = true) (hr : s.status = .running)
    (h : s.fetch = .ok i) : step s = exec i s := by
  rw [step_of_running hl hr, h]

/-- A step that answers a next state was due, and either the fetch raised or an instruction that stands at
the pc was executed. -/
theorem step_cases (h : step s = .next t) :
    s.cfg.legal = true ∧ s.status = .running ∧
      ((∃ k, s.fetch = .error k ∧ t = s.raise k) ∨
       (∃ i, s.budgetSpent = false ∧ s.Holds i ∧ s.fetch = .ok i ∧ exec i s = .next t)) := by
  have h' := h
  unfold step at h'
  split at h'
  · next hl =>
    split at h'
    · next hr =>
      refine ⟨hl, hr, ?_⟩
      rcases s.fetch_cases with ⟨-, hf⟩ | ⟨hb, ⟨-, hf⟩ | ⟨-, -, ⟨-, hf⟩ | ⟨m, -, ⟨-, hf⟩ | ⟨i, -, hh, hf⟩⟩⟩⟩
      case inr.inr.inr.inr => exact .inr ⟨i, hb, hh, hf, by rw [← step_of_fetch_ok hl hr hf]; exact h⟩
      all_goals
        rw [step_of_fetch_error hl hr hf] at h
        exact .inl ⟨_, hf, by simpa using h.symm⟩
    · cases h'
    · cases h'
  · cases h'

/-- One instruction stands at the pc. -/
theorem State.Holds.unique {i j : Instr} (hl : s.cfg.legal = true) (hi : s.Holds i) (hj : s.Holds j) :
    i = j := by
  have hcfg : ∀ k, s.Holds k → ({ s with cfg := { s.cfg with stepLimit := none } } : State).fetch = .ok k :=
    fun k hk => State.fetch_of_holds (s := { s with cfg := { s.cfg with stepLimit := none } }) hl rfl
      ⟨hk.low, hk.high, hk.bytes⟩
  have := hcfg i hi
  rw [hcfg j hj] at this
  simpa using this.symm

/-! ### Runs -/

theorem State.RunsTo_zero : s.RunsTo 0 t ↔ s = t := by
  simp only [State.RunsTo, Host.Core.run]
  constructor
  · intro h
    injection h
  · intro h
    rw [h]

theorem State.RunsTo_succ {n : Nat} : s.RunsTo (n + 1) t ↔ ∃ u, step s = .next u ∧ u.RunsTo n t := by
  unfold State.RunsTo
  simp only [Host.Core.run]
  rw [show core.step s = step s from rfl]
  cases hs : step s with
  | next u => simp
  | fault r => simp
  | refused r => simp

end Sys2Proof.Machine
end

