-- ==== Sys2Proof/Laws/Runs.lean ====
section
/-! SUPPORT. The machine the host loads a word into, and an induction over runs packaged once. -/

namespace Sys2Proof.Machine

variable {s t : State}

/-- A property that holds of a state and is kept by every step holds at the end of every run from it. -/
theorem State.RunsTo.induct {P : State → Prop} (hP : ∀ u v, P u → step u = .next v → P v) {n : Nat}
    (h0 : P s) (h : s.RunsTo n t) : P t := by
  induction n generalizing s with
  | zero => rwa [← State.RunsTo_zero.mp h]
  | succ n ih =>
    obtain ⟨u, hu, hr⟩ := State.RunsTo_succ.mp h
    exact ih (hP s u h0 hu) hr

/-- Storing an instruction at the pc keeps the state well formed, and changes nothing but memory. -/
theorem State.WF.withFetchWord (h : s.WF) (nbits w : Nat) : (s.withFetchWord nbits w).WF :=
  ⟨h.legal, h.regs, Memory.wf_putBytes _ _ h.mem⟩

/-- The bytes of the stored instruction stand at the pc, where they lie in the buffer. -/
theorem State.byteAt_withFetchWord {nbits w k : Nat} {b : Byte} (h : s.WF)
    (hb : (tableBytes nbits w)[k]? = some b) (hk : s.pc.toNat + k < s.memSize) :
    (s.withFetchWord nbits w).byteAt (s.pc.toNat + k) = b :=
  Memory.read_putBytes h.mem hb hk

end Sys2Proof.Machine
end

