-- ==== Sys2Proof/Tests/Slice0.lean ====
section
/-! SUPPORT. The model's own tests. Expected values are those of spec/95_test_vectors.md (L1, A4, B5, ...) or
worked by hand from the rule named. Then, for every statement with hypotheses, a witness: a concrete state and
operands that meet them all together, each clause at a boundary value of its range. -/

namespace Sys2Proof.Tests

open Sys2Proof Sys2Proof.Machine

/-- N bytes, K = 4, the default opcode bytes. -/
def cfg (n : Nat) (mode : Reg0Mode := .fault) (limit : Option Nat := none) : Config where
  memSize   := n
  numRegs   := 4
  opcodes   := .standard
  reg0Mode  := mode
  stepLimit := limit

/-- A run in progress with these registers and these bytes from address `at_`. -/
def st (n : Nat) (regs : List Word) (at_ : Nat) (bytes : List Byte) (mode : Reg0Mode := .fault)
    (limit : Option Nat := none) : State where
  cfg    := cfg n mode limit
  regs   := regs
  mem    := Memory.putBytes n [] at_ bytes
  status := .running
  steps  := 0

/-- The next state of an outcome, if it is one. -/
def after : Host.Outcome State Fault Refusal → Option State
  | .next s    => some s
  | .fault _   => none
  | .refused _ => none

/-! ### Decoding: words written from R61 and R64 (95_test_vectors.md 2.1) -/

theorem test_decode_load : decode .standard [0x01, 0x02, 0x2E] = .ok (.load 2 46, []) := by rfl
theorem test_decode_store : decode .standard [0x02, 0x03, 0x2C] = .ok (.store 3 44, []) := by rfl
theorem test_decode_add : decode .standard [0x03, 0x01, 0x02] = .ok (.add 1 2, []) := by rfl
theorem test_decode_sub : decode .standard [0x04, 0x02, 0x01] = .ok (.sub 2 1, []) := by rfl
theorem test_decode_addi : decode .standard [0x05, 0x03] = .ok (.addi 3, []) := by rfl
theorem test_decode_subi : decode .standard [0x06, 0x01] = .ok (.subi 1, []) := by rfl
theorem test_decode_jump : decode .standard [0x07, 0xFF] = .ok (.jump 255, []) := by rfl
theorem test_decode_beq : decode .standard [0x08, 0x01, 0x02, 0x0C] = .ok (.beq 1 2 12, []) := by rfl
theorem test_decode_beqz : decode .standard [0x09, 0x00] = .ok (.beqz 0, []) := by rfl
theorem test_decode_halt : decode .standard [0x0A] = .ok (.halt, []) := by rfl
theorem test_decode_unknown : decode .standard [0x00] = .error (.unknownOpcode 0x00) := by rfl
theorem test_decode_truncated : decode .standard [0x08, 0x01, 0x02] = .error (.truncated .BEQ) := by rfl
theorem test_decode_nothing : decode .standard [] = .error .noOpcode := by rfl

/-- The table's numbering: bit 0 is the least significant bit of the first byte. -/
theorem test_decodeTableWord_beq : decodeTableWord 32 0x0C020108 = some (.beq 1 2 12) := by decide
theorem test_decodeTableWord_unknown : decodeTableWord 8 0x0B = none := by decide

/-- The loaded word is what the first step after reset runs: ADDI r1. -/
theorem test_withFetchWord_addi :
    (after (step (State.reset.withFetchWord 16 0x0105))).map (fun t => (t.reg 1, t.pc)) = some (1, 2) := by
  decide

/-! ### Well-formedness: an ill-formed term for each check (R8, R9, R25) -/

theorem smoke_legal : (cfg 20).legal = true := by decide
theorem smoke_memSize_zero : (cfg 0).legal = false := by decide
theorem smoke_memSize_over : (cfg 257).legal = false := by decide
theorem smoke_numRegs_one : ({ cfg 20 with numRegs := 1 } : Config).legal = false := by decide
theorem smoke_numRegs_over : ({ cfg 20 with numRegs := 257 } : Config).legal = false := by decide
theorem smoke_opcodes_shared :
    ({ cfg 20 with opcodes := { OpcodeMap.standard with halt := 0x01 } } : Config).legal = false := by decide
theorem smoke_wellFormed : (Instr.add 1 3).wellFormed (cfg 20) = true := by decide
theorem smoke_reg_zero : (Instr.load 0 16).wellFormed (cfg 20) = false := by decide
theorem smoke_reg_past_end : (Instr.addi 4).wellFormed (cfg 20) = false := by decide
theorem smoke_second_reg : (Instr.beq 1 9 0).wellFormed (cfg 20) = false := by decide
theorem smoke_reg_zero_alias : (Instr.add 0 0).wellFormed (cfg 20 .aliasPc) = true := by decide

/-! ### One step of each instruction (95_test_vectors.md) -/

/-- L1. -/
theorem test_load : (after (exec (.load 1 16) (st 20 [0, 0, 0, 0] 16 [0xFF, 0x00]))).map
    (fun t => (t.reg 1, t.pc)) = some (255, 3) := by decide
/-- L4: a = N-1. -/
theorem test_load_past_end : (after (exec (.load 1 19) (st 20 [0, 0, 0, 0] 0 []))).map
    (fun t => (t.status, t.reg 1)) = some (.error .outOfBoundsAccess 0, 0) := by decide
/-- R101's example: x[1] = 258 stored at 14 from p = 9. -/
theorem test_store : (after (exec (.store 1 14) (st 20 [9, 258, 0, 0] 0 []))).map
    (fun t => (t.byteAt 14, t.byteAt 15, t.pc)) = some (0x02, 0x01, 12) := by decide
/-- L7: a = N-1 writes nothing. -/
theorem test_store_past_end : (after (exec (.store 1 19) (st 20 [5, 1, 0, 0] 0 []))).map
    (fun t => (t.status, t.byteAt 19)) = some (.error .outOfBoundsAccess 5, 0x00) := by decide
/-- A4: -20000 + -20000 = 25536. -/
theorem test_add : (after (exec (.add 1 2) (st 20 [6, 45536, 45536, 0] 0 []))).map
    (fun t => (t.reg 1, t.reg 2, t.pc)) = some (25536, 45536, 9) := by decide
/-- A8: 256 - 300 = -44, bytes D4 FF. -/
theorem test_sub : (after (exec (.sub 1 2) (st 20 [6, 256, 300, 0] 0 []))).map
    (fun t => (sint16 (t.reg 1), t.reg 2)) = some (-44, 300) := by decide
/-- A13: 32767 + 1 = -32768. -/
theorem test_addi : (after (exec (.addi 1) (st 20 [3, 0x7FFF, 0, 0] 0 []))).map
    (fun t => (t.reg 1, t.pc)) = some (0x8000, 5) := by decide
/-- A17: 0 - 1 = -1. -/
theorem test_subi : (after (exec (.subi 1) (st 20 [3, 0, 0, 0] 0 []))).map
    (fun t => (t.reg 1, t.pc)) = some (0xFFFF, 5) := by decide
/-- B1. -/
theorem test_jump : (after (step (st 20 [3, 0, 0, 0] 3 [0x07, 0x0B]))).map
    (fun t => (t.pc, t.steps)) = some (11, 1) := by decide
/-- B5 and B6. -/
theorem test_beq_taken : (after (step (st 20 [6, 7, 7, 0] 6 [0x08, 0x01, 0x02, 0x0C]))).map
    State.pc = some 12 := by decide
theorem test_beq_not_taken : (after (step (st 20 [6, 7, 8, 0] 6 [0x08, 0x01, 0x02, 0x0C]))).map
    State.pc = some 10 := by decide
/-- B14: tests r1 only. -/
theorem test_beqz_taken : (after (step (st 20 [0, 0, 5, 0] 0 [0x09, 0x0A]))).map
    State.pc = some 10 := by decide
/-- B13: 0x8000 is not zero. -/
theorem test_beqz_not_taken : (after (step (st 20 [3, 0x8000, 0, 0] 3 [0x09, 0x0C]))).map
    State.pc = some 5 := by decide
/-- H2: N = 1. -/
theorem test_halt : (after (step (st 1 [0, 0, 0, 0] 0 [0x0A]))).map
    (fun t => (t.status, t.pc, t.steps)) = some (.halted, 0, 1) := by decide
/-- X1: ADDI r0 at 0 continues at 3. -/
theorem test_alias_addi : (after (step (st 20 [0, 0, 0, 0] 0 [0x05, 0x00] .aliasPc))).map
    State.pc = some 3 := by decide
/-- X4: STORE r0 at 4 writes 04 00. -/
theorem test_alias_store : (after (step (st 20 [4, 0, 0, 0] 4 [0x02, 0x00, 0x0E] .aliasPc))).map
    (fun t => (t.byteAt 14, t.byteAt 15, t.pc)) = some (0x04, 0x00, 7) := by decide

/-! ### Errors of a step -/

/-- E1. -/
theorem test_zero_buffer : (after (step (st 20 [0, 0, 0, 0] 0 []))).map
    (fun t => (t.status, t.steps)) = some (.error .unknownOpcode 0, 0) := by decide
/-- E3: decode comes before the operand check. -/
theorem test_unknown_at_end : (after (step (st 20 [19, 0, 0, 0] 19 [0xEE]))).map
    State.status = some (.error .unknownOpcode 19) := by decide
/-- E2: the operand byte of ADDI lies past the end. -/
theorem test_operand_past_end : (after (step (st 3 [2, 0, 0, 0] 2 [0x05]))).map
    State.status = some (.error .outOfBoundsAccess 2) := by decide
/-- L11: the register is checked before the address. -/
theorem test_register_first : (after (step (st 20 [0, 0, 0, 0] 0 [0x01, 0x09, 0x13]))).map
    State.status = some (.error .invalidRegisterIndex 0) := by decide
/-- E5. -/
theorem test_step_limit : (after (step (st 20 [0, 0, 0, 0] 0 [0x0A] .fault (some 0)))).map
    State.status = some (.error .stepLimitExceeded 0) := by decide
/-- U7: a negative pc faults at the fetch. -/
theorem test_negative_pc : (after (step (st 20 [0xFFFF, 0, 0, 0] 0 [] .aliasPc))).map
    State.status = some (.error .outOfBoundsAccess 0xFFFF) := by decide

/-! ### Witnesses: the hypotheses of the statements can be met -/

/-- A well-formed state over any test configuration and any bytes. -/
theorem st_wf {n a : Nat} {regs : List Word} {bytes : List Byte} {m : Reg0Mode} {l : Option Nat}
    (hl : (cfg n m l).legal = true) (hr : regs.length = 4) : (st n regs a bytes m l).WF :=
  ⟨hl, hr, Memory.wf_putBytes a bytes rfl⟩

/-- A step is due in any test state without a limit. -/
theorem st_ready {n a : Nat} {regs : List Word} {bytes : List Byte} {m : Reg0Mode}
    (hl : (cfg n m none).legal = true) : (st n regs a bytes m none).Ready :=
  ⟨hl, rfl, fun _ h => by cases h⟩

/-- The state of most witnesses: N = 20, p = 0, x[1] = 0x1234, x[2] = 5. -/
def w (mode : Reg0Mode := .fault) (bytes : List Byte := []) : State := st 20 [0, 0x1234, 5, 0] 0 bytes mode

theorem witness_OpcodeMaps : OpcodeMap.standard.injective = true ∧
    ({ OpcodeMap.standard with load := 0xFE, halt := 0x01 } : OpcodeMap).injective = true := by decide

theorem witness_EncodeOfDecode : decode .standard [0x08, 0x00, 0xFF, 0xFF, 0x77] =
    .ok (.beq 0 255 255, [0x77]) := by rfl

theorem witness_MemRead : w.memSize = 20 ∧ (0 : Int) ≤ 19 ∧ (19 : Int) + 1 ≤ w.memSize ∧
    (18 : Int) + 2 ≤ w.memSize ∧ (19 : Int) + 2 > w.memSize ∧ (20 : Int) + 1 > w.memSize ∧ (-1 : Int) < 0 := by
  decide

theorem witness_MemWrite : w.WF ∧ (0 : Int) ≤ 18 ∧ (18 : Int) + 2 ≤ w.memSize ∧ (19 : Int) + 2 > w.memSize :=
  ⟨st_wf (by decide) rfl, by decide, by decide, by decide⟩

theorem witness_LittleEndian : (-32768 : Int) ≤ -32768 ∧ (32767 : Int) ≤ 32767 ∧ w.WF ∧
    w.cfg.validReg 1 = true ∧ (1 : Byte).toNat ≠ 0 ∧ (18 : Byte).toNat + 2 ≤ w.memSize :=
  ⟨by decide, by decide, st_wf (by decide) rfl, by decide, by decide, by decide⟩

/-- One witness for each of the four overlaps: b = a, b = a + 1, b + 1 = a, and apart. -/
theorem witness_Overlap : w.WF ∧ w.cfg.validReg 1 = true ∧ w.cfg.validReg 3 = true ∧
    (3 : Byte).toNat ≠ 0 ∧ (17 : Byte).toNat + 2 ≤ w.memSize ∧ (18 : Byte).toNat + 2 ≤ w.memSize ∧
    (18 : Byte).toNat = (17 : Byte).toNat + 1 ∧ (16 : Byte).toNat + 1 = (17 : Byte).toNat ∧
    (15 : Byte).toNat + 1 < (17 : Byte).toNat ∧ (0 : Byte).toNat + 2 ≤ w.memSize :=
  ⟨st_wf (by decide) rfl, by decide, by decide, by decide, by decide, by decide, by decide, by decide,
    by decide, by decide⟩

/-- LOAD and STORE: a valid register at both ends of its range, the last legal address, the first
illegal one, both kinds of invalid register, and register 0 under `AliasPc`. -/
theorem witness_LoadStore : w.WF ∧ w.cfg.validReg 1 = true ∧ w.cfg.validReg 3 = true ∧
    (18 : Byte).toNat + 2 ≤ w.memSize ∧ w.memSize < (19 : Byte).toNat + 2 ∧
    w.cfg.validReg 0 = false ∧ w.cfg.validReg 4 = false ∧
    (w .aliasPc).WF ∧ (w .aliasPc).cfg.validReg 0 = true ∧ (0 : Byte).toNat = 0 ∧
    (18 : Byte).toNat + 2 ≤ (w .aliasPc).memSize :=
  ⟨st_wf (by decide) rfl, by decide, by decide, by decide, by decide, by decide, by decide,
    st_wf (by decide) rfl, by decide, by decide, by decide⟩

/-- ADD, SUB, ADDI, SUBI, and the arithmetic statements: one register, two registers, register 0, and an
invalid first or second operand. -/
theorem witness_Arithmetic : w.WF ∧ w.cfg.validReg 1 = true ∧ w.cfg.validReg 3 = true ∧
    (1 : Byte).toNat ≠ 0 ∧ w.cfg.validReg 0 = false ∧ w.cfg.validReg 4 = false ∧
    (w .aliasPc).WF ∧ (w .aliasPc).cfg.validReg 0 = true ∧ (w .aliasPc).cfg.validReg 3 = true :=
  ⟨st_wf (by decide) rfl, by decide, by decide, by decide, by decide, by decide, st_wf (by decide) rfl,
    by decide, by decide⟩

/-- Signed results below, inside and above the range: -32768 - 1, 5 - 0, 32767 + 1. -/
theorem witness_SignedRanges :
    sint16 0x8000 - 1 < -32768 ∧ sint16 5 - sint16 0 = 5 ∧ sint16 0x7FFF + 1 > 32767 := by decide

theorem witness_Branches : w.WF ∧ w.reg 1 ≠ w.reg 2 ∧ w.reg 1 = w.reg 1 ∧ w.reg 1 ≠ 0 ∧
    (st 20 [3, 0, 0, 0] 0 []).WF ∧ (st 20 [3, 0, 0, 0] 0 []).reg 1 = 0 :=
  ⟨st_wf (by decide) rfl, by decide, rfl, by decide, st_wf (by decide) rfl, by decide⟩

theorem witness_HaltNext : w.cfg.legal = true := by decide

theorem witness_AliasPc : (w .aliasPc).WF ∧ (w .aliasPc).cfg.reg0Mode = .aliasPc ∧
    (w .aliasPc).cfg.validReg 3 = true ∧ (18 : Byte).toNat + 2 ≤ (w .aliasPc).memSize ∧
    w.cfg.reg0Mode = .fault :=
  ⟨st_wf (by decide) rfl, rfl, by decide, by decide, rfl⟩

/-- An instruction that ends with the buffer's last byte stands at the pc. -/
theorem witness_Step : (st 4 [0, 0, 0, 0] 0 [0x08, 0x01, 0x02, 0x0C]).Ready ∧
    (st 4 [0, 0, 0, 0] 0 [0x08, 0x01, 0x02, 0x0C]).Holds (.beq 1 2 12) ∧
    decode .standard ((st 4 [0, 0, 0, 0] 0 [0x08, 0x01, 0x02, 0x0C]).mem.slice 0 4) = .ok (.beq 1 2 12, []) :=
  ⟨st_ready (by decide), ⟨by decide, by decide, by decide⟩, by rfl⟩

theorem witness_StepLimit : (st 20 [0, 0, 0, 0] 0 [] .fault (some 0)).cfg.legal = true ∧
    (st 20 [0, 0, 0, 0] 0 [] .fault (some 0)).status = .running ∧
    (0 : Nat) ≤ (st 20 [0, 0, 0, 0] 0 [] .fault (some 0)).steps ∧ w.cfg.stepLimit = none := by
  decide

/-- The three places of `UnknownOpcode` and `OutOfBoundsAccess` at the fetch: the last byte unknown, the pc
at N, below 0, and the last byte a two-byte opcode. -/
theorem witness_FetchErrors :
    (st 20 [19, 0, 0, 0] 19 [0xEE]).Ready ∧ (st 20 [19, 0, 0, 0] 19 [0xEE]).instrAddr = 19 ∧
    (cfg 20).opcodes.decodeOpcode ((st 20 [19, 0, 0, 0] 19 [0xEE]).byteAt 19) = none ∧
    (st 20 [20, 0, 0, 0] 0 []).instrAddr ≥ 20 ∧ (st 20 [0x8000, 0, 0, 0] 0 []).instrAddr < 0 ∧
    (cfg 20).opcodes.decodeOpcode ((st 20 [19, 0, 0, 0] 19 [0x05]).byteAt 19) = some .ADDI :=
  ⟨st_ready (by decide), by decide, by decide, by decide, by decide, by decide⟩

/-- A LOAD and a STORE with a valid register and a = N-1, and a LOAD with an invalid one, at the pc. -/
theorem witness_ExecErrors : (w .fault [0x01, 0x01, 0x13]).Ready ∧
    (w .fault [0x01, 0x01, 0x13]).Holds (.load 1 19) ∧ (w .fault [0x02, 0x01, 0x13]).Holds (.store 1 19) ∧
    (w .fault [0x01, 0x04, 0x10]).Holds (.load 4 16) ∧
    (4 : Byte) ∈ (Instr.load 4 16).regOperands ∧ (cfg 20).validReg 4 = false :=
  ⟨st_ready (by decide), ⟨by decide, by decide, by decide⟩, ⟨by decide, by decide, by decide⟩,
    ⟨by decide, by decide, by decide⟩, by decide, by decide⟩

theorem witness_FirstFailure :
    (st 20 [0, 0, 0, 0] 0 [] .fault (some 0)).firstFailure = some .stepLimitExceeded ∧
    (st 20 [20, 0, 0, 0] 0 []).firstFailure = some .outOfBoundsAccess ∧
    (st 20 [19, 0, 0, 0] 19 [0xEE]).firstFailure = some .unknownOpcode ∧
    (st 20 [19, 0, 0, 0] 19 [0x05]).firstFailure = some .outOfBoundsAccess ∧
    (w .fault [0x01, 0x09, 0x13]).firstFailure = some .invalidRegisterIndex ∧
    (w .fault [0x01, 0x01, 0x13]).firstFailure = some .outOfBoundsAccess ∧
    (w .fault [0x01, 0x01, 0x12]).firstFailure = none := by
  decide

/-- A step that ends in an error, and a run of one step that comes before one. -/
theorem witness_ErrorStep : step w = .next (w.raise .unknownOpcode) ∧
    (w.raise .unknownOpcode).status = .error .unknownOpcode 0 :=
  ⟨rfl, rfl⟩

theorem witness_ErrorAfterOneStep : ∃ u, (w .fault [0x05, 0x01, 0xFF]).RunsTo 1 u ∧
    step u = .next (u.raise .unknownOpcode) :=
  ⟨_, rfl, rfl⟩

theorem witness_FinalStates : w.cfg.legal = true ∧ (w.setStatus .halted).status ≠ .running ∧
    (w.raise .unknownOpcode).status ≠ .running := by
  decide

/-- The three transfers, taken, with the target N (past the end) and a target on a byte that is no opcode. -/
theorem witness_Targets : (w .fault [0x07, 0x14]).WF ∧ (w .fault [0x07, 0x14]).Ready ∧
    (w .fault [0x07, 0x14]).Holds (.jump 20) ∧ (w .fault [0x08, 0x01, 0x01, 0x14]).Holds (.beq 1 1 20) ∧
    (st 20 [0, 0, 5, 0] 0 [0x09, 0x13]).Holds (.beqz 19) ∧ (st 20 [0, 0, 5, 0] 0 [0x09, 0x13]).reg 1 = 0 ∧
    (20 : Nat) ≤ (20 : Byte).toNat ∧ (19 : Byte).toNat < 20 ∧
    (cfg 20).opcodes.decodeOpcode ((st 20 [0, 0, 5, 0] 0 [0x09, 0x13]).byteAt 19) = none :=
  ⟨st_wf (by decide) rfl, st_ready (by decide), ⟨by decide, by decide, by decide⟩,
    ⟨by decide, by decide, by decide⟩, ⟨by decide, by decide, by decide⟩, by decide, by decide, by decide,
    by decide⟩

/-- A STORE at 0 over the byte at 3, of a HALT byte and of a byte that is no opcode. -/
theorem witness_StoreIntoCode :
    (st 20 [0, 0x000A, 0xFF, 0] 0 [0x02, 0x01, 0x03]).WF ∧ (st 20 [0, 0x000A, 0xFF, 0] 0 [0x02, 0x01, 0x03]).Ready ∧
    (st 20 [0, 0x000A, 0xFF, 0] 0 [0x02, 0x01, 0x03]).Holds (.store 1 3) ∧
    (st 20 [0, 0x000A, 0xFF, 0] 0 [0x02, 0x02, 0x03]).Holds (.store 2 3) ∧
    (0x000A : Word).toNat % 256 = OpcodeMap.standard.halt.toNat ∧
    OpcodeMap.standard.decodeOpcode (BitVec.ofNat 8 ((0xFF : Word).toNat % 256)) = none :=
  ⟨st_wf (by decide) rfl, st_ready (by decide), ⟨by decide, by decide, by decide⟩,
    ⟨by decide, by decide, by decide⟩, by decide, by decide⟩

/-- Configurations at the four ends of R8, and one outside each. -/
theorem witness_Configurations :
    ({ cfg 1 with numRegs := 2 } : Config).legal = true ∧ ({ cfg 256 with numRegs := 256 } : Config).legal = true ∧
    (cfg 0).legal = false ∧ ({ w with cfg := cfg 257 } : State).cfg.legal = false := by
  decide

theorem witness_Buffer : (cfg 3).legal = true ∧ ([0x05, 0x01, 0x0A] : List Byte).length = (cfg 3).memSize ∧
    ([0x05] : List Byte).length ≠ (cfg 3).memSize ∧ ([0x05, 0x01, 0x0A] : List Byte)[2]? = some 0x0A := by
  decide

theorem witness_ResetMemory : (cfg 20).legal = true ∧ Memory.wf 20 [(0, 0x0A), (19, 0x01)] = true := by decide

/-- The invariant holds of a state whose step completes, in both modes. -/
theorem witness_Invariant : (w .fault [0x02, 0x01, 0x12]).Inv ∧ (w .aliasPc [0x05, 0x00]).Inv ∧
    (w .fault [0x02, 0x01, 0x12]).cfg.reg0Mode = .fault ∧
    (after (step (w .fault [0x02, 0x01, 0x12]))).map State.status = some .running :=
  ⟨⟨st_wf (by decide) rfl, fun _ => by decide, fun _ h => by cases h⟩,
   ⟨st_wf (by decide) rfl, fun h => (by cases h), fun _ h => by cases h⟩, rfl, by decide⟩

/-- A step that changes a byte of memory, and one that changes a general register. -/
theorem witness_Changes :
    (after (step (w .fault [0x02, 0x01, 0x12]))).map (fun t => (t.byteAt 18, t.byteAt 19)) = some (0x34, 0x12) ∧
    (w .fault [0x02, 0x01, 0x12]).byteAt 18 = 0 ∧
    (after (step (w .fault [0x05, 0x02]))).map (fun t => t.reg 2) = some 6 ∧ w.reg 2 = 5 := by
  decide

/-- A step that halts, and so a run that ends halted. -/
theorem witness_Halts : ∃ t, step (w .fault [0x0A]) = .next t ∧ t.status = .halted ∧
    (w .fault [0x0A]).status = .running ∧ (w .fault [0x0A]).EndsHalted :=
  ⟨_, rfl, rfl, rfl, 1, _, rfl, rfl⟩

/-- A run with a budget of one step: one JUMP to itself, after which the budget is spent. -/
theorem witness_StepLimitRun : ∃ t, (st 20 [0, 0, 0, 0] 0 [0x07, 0x00] .fault (some 1)).RunsTo 1 t ∧
    t.status = .running ∧ (st 20 [0, 0, 0, 0] 0 [0x07, 0x00] .fault (some 1)).cfg.legal = true ∧
    (st 20 [0, 0, 0, 0] 0 [0x07, 0x00] .fault (some 1)).steps ≤ 1 :=
  ⟨_, rfl, rfl, by decide, by decide⟩

theorem witness_SelfJump : (w .fault [0x07, 0x00]).WF ∧ (w .fault [0x07, 0x00]).status = .running ∧
    (w .fault [0x07, 0x00]).cfg.stepLimit = none ∧ (w .fault [0x07, 0x00]).Holds (.jump 0) ∧
    (w .fault [0x07, 0x00]).pc.toNat = (0 : Byte).toNat :=
  ⟨st_wf (by decide) rfl, rfl, rfl, ⟨by decide, by decide, by decide⟩, by decide⟩

end Sys2Proof.Tests
end

section
/-! SUPPORT. Which configurations are legal (R8), as an equivalence, and what an illegal one starts (R9). -/

namespace Sys2Proof

theorem Mnemonic.all_nodup : Mnemonic.all.Nodup := by decide

/-- The check over the ten listed mnemonics is injectivity over all of them, since none is left out and none
is listed twice. -/
theorem OpcodeMap.injective_iff {om : OpcodeMap} :
    om.injective = true ↔ ∀ m m' : Mnemonic, om.byte m = om.byte m' → m = m' := by
  constructor
  · intro h m m' he
    exact OpcodeMap.byte_inj h he
  · intro h
    exact decide_eq_true (Mnemonic.all_nodup.map fun m m' he => h m m' he)

theorem Config.legal_iff {c : Config} :
    c.legal = true ↔ 1 ≤ c.memSize ∧ c.memSize ≤ 256 ∧ 2 ≤ c.numRegs ∧ c.numRegs ≤ 256 ∧
      ∀ m m' : Mnemonic, c.opcodes.byte m = c.opcodes.byte m' → m = m' := by
  constructor
  · intro h
    obtain ⟨hn, hn', hk, hk'⟩ := Config.legal_bounds h
    exact ⟨hn, hn', hk, hk', OpcodeMap.injective_iff.mp (Config.legal_injective h)⟩
  · rintro ⟨hn, hn', hk, hk', hinj⟩
    simp [Config.legal, hn, hn', hk, hk', OpcodeMap.injective_iff.mpr hinj]

end Sys2Proof

namespace Sys2Proof.Machine

/-- R9: an illegal configuration starts no run, whatever the buffer. -/
theorem State.startBuffer_of_illegal {c : Config} (h : c.legal = false) (buffer : List Byte) :
    State.startBuffer c buffer = none := by
  simp [State.startBuffer, h]

/-- The refusal comes before the status is looked at, so it holds of final states too (log 8). -/
theorem step_of_illegal {s : State} (h : s.cfg.legal = false) :
    step s = .refused .illegalConfiguration := by
  simp [step, h]

/-- Settles O37: the legal set is `Config.legal_iff`; both ways into a run, its start and a step of it, test
`Config.legal` first. -/
theorem illegalConfigurationsRejected : Obligations.IllegalConfigurationsRejected := by
  unfold Obligations.IllegalConfigurationsRejected
  exact ⟨fun _ => Config.legal_iff, fun _ buffer h => State.startBuffer_of_illegal h buffer,
    fun _ h => step_of_illegal h⟩

end Sys2Proof.Machine
end

section
/-! SUPPORT. MemRead and MemWrite (R43, R44) at addresses given as integers, and the little-endian codec with
the slots it reads and writes (R45). -/

namespace Sys2Proof.Machine

variable {s : State}

/-! ### MemRead and MemWrite -/

theorem State.memRead_one {a : Nat} (h : a + 1 ≤ s.memSize) : s.memRead a 1 = .ok (s.byteAt a).toNat := by
  rw [State.memRead_ok h, Memory.readLE_one, State.byteAt]

theorem State.memRead_two {a : Nat} (h : a + 2 ≤ s.memSize) :
    s.memRead a 2 = .ok ((s.byteAt a).toNat + (s.byteAt (a + 1)).toNat * 256) := by
  rw [State.memRead_ok h, Memory.readLE_two, Nat.mul_comm, State.byteAt, State.byteAt]

/-- Settles O7: a non-negative address is a natural number, where `memRead_one` and `memRead_two` say what is
read. -/
theorem memReadChecksThenReads : Obligations.MemReadChecksThenReads := by
  unfold Obligations.MemReadChecksThenReads
  intro s a n _
  refine ⟨State.memRead_error, ?_, ?_⟩
  · rintro h0 hle rfl
    lift a to Nat using h0
    exact State.memRead_one (by omega)
  · rintro h0 hle rfl
    lift a to Nat using h0
    exact State.memRead_two (by omega)

/-- Settles O8: the answer is the state with the two bytes written, and `Memory.writeLE_two_spec` and
`Memory.read_writeLE_two_ne` say what that memory reads. -/
theorem memWriteAllOrNothing : Obligations.MemWriteAllOrNothing := by
  unfold Obligations.MemWriteAllOrNothing
  intro s a v hs
  refine ⟨State.memWrite_error v, fun h0 hle => ?_⟩
  lift a to Nat using h0
  have ha : a + 2 ≤ s.memSize := by omega
  obtain ⟨hwf, hlo, hhi⟩ := Memory.writeLE_two_spec v hs.mem ha
  refine ⟨s.setMem (s.mem.writeLE a 2 v.toNat), State.memWrite_ok v ha, ?_, ?_, ?_, rfl, hwf⟩
  · rw [Int.toNat_natCast, State.byteAt_setMem, hlo, lo8_toNat]
  · rw [Int.toNat_natCast, State.byteAt_setMem, hhi, hi8_toNat]
  · intro b hb0 hb1
    exact Memory.read_writeLE_two_ne s.mem v hb0 hb1

/-! ### The little-endian codec -/

/-- Wrapping loses nothing of a value in the signed range. -/
theorem sint16_wrap16 {v : Int} (hl : -32768 ≤ v) (hh : v ≤ 32767) : sint16 (wrap16 v) = v := by
  have := wrap16_toNat v
  unfold sint16
  split <;> omega

theorem lo8_wrap16_toNat (v : Int) : ((lo8 (wrap16 v)).toNat : Int) = v % 256 := by
  have := wrap16_toNat v
  rw [lo8_toNat]
  omega

theorem hi8_wrap16_toNat (v : Int) : ((hi8 (wrap16 v)).toNat : Int) = v / 256 % 256 := by
  have := wrap16_toNat v
  rw [hi8_toNat]
  omega

/-- The two bytes of a pattern decode to its signed reading. -/
theorem decodeLE_lo8_hi8 (u : Word) : decodeLE (lo8 u) (hi8 u) = sint16 u := by
  rw [decodeLE, ofLoHi_lo8_hi8]

/-- A slot is the signed reading of the 2-byte value at its address. -/
theorem Memory.readSlot_eq_sint16_readLE (m : Memory) (a : Nat) :
    m.readSlot a = sint16 (BitVec.ofNat 16 (m.readLE a 2)) := by
  rw [Memory.readLE_two, Memory.readSlot, decodeLE, ofLoHi]

/-- A 2-byte store is read back as the signed reading of what was stored. -/
theorem Memory.readSlot_writeLE_two {n a : Nat} {m : Memory} (v : Word) (h : m.wf n = true) (ha : a + 2 ≤ n) :
    (m.writeLE a 2 v.toNat).readSlot a = sint16 v := by
  obtain ⟨-, hlo, hhi⟩ := Memory.writeLE_two_spec v h ha
  rw [Memory.readSlot, hlo, hhi, decodeLE_lo8_hi8]

/-- Settles O9: the codec round trip, and the slot that LOAD reads and STORE writes. -/
theorem littleEndianRoundTrip : Obligations.LittleEndianRoundTrip := by
  unfold Obligations.LittleEndianRoundTrip
  refine ⟨?_, ?_, ?_, ?_⟩
  · intro v hl hh
    refine ⟨_, _, rfl, lo8_wrap16_toNat v, hi8_wrap16_toNat v, ?_⟩
    rw [decodeLE_lo8_hi8, sint16_wrap16 hl hh]
  · intro lo hi
    exact ⟨by rw [ofLoHi_toNat, Nat.mul_comm], rfl⟩
  · intro s r a hs hr hr0 ha
    refine ⟨_, execLoad_ok hr ha, ?_⟩
    rw [(State.destination _ 3 hs hr hr0).1, Memory.readSlot_eq_sint16_readLE]
  · intro s r a hs hr ha
    exact ⟨_, execStore_ok hr ha, Memory.readSlot_writeLE_two _ hs.mem ha⟩

end Sys2Proof.Machine
end

section
/-! SUPPORT. Opcode decoding and the decoder as equivalences (R66), the default opcode bytes (R64), and the
formats and widths (R61, R65). -/

namespace Sys2Proof

/-! ### Opcode decoding and the decoder -/

/-- Under an injective map the first mnemonic of the table with the byte is the only one. -/
theorem OpcodeMap.decodeOpcode_eq_some_iff {om : OpcodeMap} (h : om.injective = true) {b : Byte}
    {m : Mnemonic} : om.decodeOpcode b = some m ↔ b = om.byte m := by
  constructor
  · intro hd
    exact (OpcodeMap.byte_of_decodeOpcode hd).symm
  · rintro rfl
    exact OpcodeMap.decodeOpcode_byte h m

theorem OpcodeMap.decodeOpcode_eq_none_iff {om : OpcodeMap} {b : Byte} :
    om.decodeOpcode b = none ↔ ∀ m, b ≠ om.byte m := by
  constructor
  · intro hd m
    exact (OpcodeMap.byte_ne_of_decodeOpcode_none hd m).symm
  · intro hne
    exact Option.eq_none_iff_forall_ne_some.mpr fun m hd => hne m (OpcodeMap.byte_of_decodeOpcode hd).symm

/-- The decoder answers an instruction exactly when the opcode byte is its mnemonic's and its operand bytes
stand in front of the rest. -/
theorem decode_cons_eq_ok_iff {om : OpcodeMap} {b : Byte} {rest tail : List Byte} {i : Instr} :
    decode om (b :: rest) = .ok (i, tail) ↔
      om.decodeOpcode b = some i.mnemonic ∧ rest = i.operands ++ tail := by
  constructor
  · intro h
    rcases decode_cases om (b :: rest) with
      ⟨hbs, -⟩ | ⟨_, _, -, -, he⟩ | ⟨_, _, _, -, -, -, he⟩ | ⟨_, _, m, i', tail', hbs, hd, ho, he⟩
    case inl => cases hbs
    case inr.inl => cases he.symm.trans h
    case inr.inr.inl => cases he.symm.trans h
    case inr.inr.inr =>
      cases hbs
      cases he.symm.trans h
      obtain ⟨rfl, hrest⟩ := decodeOperands_some ho
      exact ⟨hd, hrest⟩
  · rintro ⟨hd, rfl⟩
    simp only [decode, hd, decodeOperands_operands]

/-- Settles O4: the opcode byte by the two equivalences for `decodeOpcode`; the bytes taken are the opcode
byte and the operands, and `Instr.operands_length` counts those. -/
theorem opcodeDecodeIsTotal : Obligations.OpcodeDecodeIsTotal := by
  unfold Obligations.OpcodeDecodeIsTotal
  intro om hinj
  refine ⟨fun _ _ => OpcodeMap.decodeOpcode_eq_some_iff hinj,
    fun _ => OpcodeMap.decodeOpcode_eq_none_iff, fun b rest tail i h => ?_⟩
  obtain ⟨hd, rfl⟩ := decode_cons_eq_ok_iff.mp h
  refine ⟨hd, ?_⟩
  have hlen : i.operands.length + 1 = i.mnemonic.width := i.operands_length
  rw [List.length_cons, List.length_append]
  omega

/-! ### The default opcode bytes -/

theorem OpcodeMap.standard_bytes : Mnemonic.all.map OpcodeMap.standard.byte =
    [0x01, 0x02, 0x03, 0x04, 0x05, 0x06, 0x07, 0x08, 0x09, 0x0A] := rfl

/-- A byte that does not decode is one that the table of opcode bytes does not list. -/
theorem OpcodeMap.decodeOpcode_eq_none_iff_not_mem {om : OpcodeMap} {b : Byte} :
    om.decodeOpcode b = none ↔ b ∉ Mnemonic.all.map om.byte := by
  rw [OpcodeMap.decodeOpcode_eq_none_iff]
  simp [Mnemonic.mem_all, eq_comm]

/-- Settles O1: the bytes that do not decode are those outside the ten listed by `OpcodeMap.standard_bytes`. -/
theorem defaultOpcodeBytes : Obligations.DefaultOpcodeBytes := by
  unfold Obligations.DefaultOpcodeBytes
  refine ⟨by decide, OpcodeMap.standard_bytes, fun b => ?_⟩
  rw [OpcodeMap.decodeOpcode_eq_none_iff_not_mem, OpcodeMap.standard_bytes]
  simp only [List.mem_cons, List.not_mem_nil, or_false]
  bv_omega

/-! ### Formats and widths -/

/-- Settles O3: each encoding is the row of its instruction in `OpcodeMap.byte` and `Instr.operands`, each
width the row in `Mnemonic.width`. -/
theorem formatsAndWidths : Obligations.FormatsAndWidths := by
  unfold Obligations.FormatsAndWidths
  intro om r r1 r2 a
  exact ⟨⟨rfl, rfl⟩, ⟨rfl, rfl⟩, ⟨rfl, rfl⟩, ⟨rfl, rfl⟩, ⟨rfl, rfl⟩, ⟨rfl, rfl⟩, ⟨rfl, rfl⟩, ⟨rfl, rfl⟩,
    ⟨rfl, rfl⟩, ⟨rfl, rfl⟩⟩

end Sys2Proof
end

section
/-! SUPPORT. Register operand 0: when it is valid (R25), what it reads under `AliasPc` (R89), and where the
next instruction is when it is the destination (R90). -/

namespace Sys2Proof

/-- Under `AliasPc` a legal configuration lets an operand name the pc (R25). -/
theorem Config.validReg_zero_of_aliasPc {c : Config} (hl : c.legal = true) (hm : c.reg0Mode = .aliasPc) :
    c.validReg 0 = true := by
  obtain ⟨-, -, hk, -⟩ := Config.legal_bounds hl
  rw [Config.validReg, hm]
  exact decide_eq_true (Nat.lt_of_lt_of_le Nat.two_pos hk)

/-- Under `Fault` no operand may name the pc (R25). -/
theorem Config.validReg_zero_of_fault {c : Config} (hm : c.reg0Mode = .fault) : c.validReg 0 = false :=
  Bool.eq_false_iff.mpr fun h => Config.ne_zero_of_validReg hm h rfl

end Sys2Proof

namespace Sys2Proof.Machine

variable {s : State}

/-! ### Operand 0 as a source -/

/-- STORE leaves the two bytes of its source register in memory. -/
theorem State.byteAt_execStore {a : Byte} (v : Word) (h : s.WF) (ha : a.toNat + 2 ≤ s.memSize) :
    (((((s.setMem (s.mem.writeLE a.toNat 2 v.toNat)).advance 3).countStep).byteAt a.toNat).toNat =
        v.toNat % 256) ∧
      ((((s.setMem (s.mem.writeLE a.toNat 2 v.toNat)).advance 3).countStep).byteAt (a.toNat + 1)).toNat =
        v.toNat / 256 := by
  obtain ⟨-, hlo, hhi⟩ := Memory.writeLE_two_spec v h.mem ha
  constructor
  · rw [State.byteAt_countStep, State.byteAt_advance, State.byteAt_setMem, hlo, lo8_toNat]
  · rw [State.byteAt_countStep, State.byteAt_advance, State.byteAt_setMem, hhi, hi8_toNat]

/-- A branch on equality goes to its target when the values are equal, else past itself (R83, R121). -/
theorem State.pc_transfer_beq (x y : Word) (a : Byte) (w : Nat) (h : s.WF) :
    (x = y → ((s.transfer (x == y) a w).countStep).pc.toNat = a.toNat) ∧
      (x ≠ y → ((s.transfer (x == y) a w).countStep).pc = s.pc + BitVec.ofNat 16 w) := by
  constructor
  · intro hxy
    rw [beq_iff_eq.mpr hxy, State.pc_countStep, State.pc_transfer_taken a w h.length_pos, targetPc_toNat]
  · intro hxy
    rw [beq_eq_false_iff_ne.mpr hxy, State.pc_countStep, State.pc_transfer_not_taken a w h.length_pos]

/-- Settles O23: `x[0]` is the pc, so under `AliasPc` each form is its completion on the valid operand 0;
under `Fault` operand 0 is not valid, and `exec_invalid` says what follows. -/
theorem operandZeroReadsPc : Obligations.OperandZeroReadsPc := by
  unfold Obligations.OperandZeroReadsPc
  intro s r a hs
  refine ⟨fun hm ha => ?_, fun hm hr hr0 => ?_, fun hm hr i hi => ?_, fun hm i hi => ?_⟩
  · have h0 := Config.validReg_zero_of_aliasPc hs.legal hm
    exact ⟨_, execStore_ok h0 ha, State.byteAt_execStore s.pc hs ha⟩
  · have h0 := Config.validReg_zero_of_aliasPc hs.legal hm
    exact ⟨⟨_, execAdd_ok hr h0, (State.destination _ 3 hs hr hr0).1⟩,
      ⟨_, execSub_ok hr h0, (State.destination _ 3 hs hr hr0).1⟩⟩
  · have h0 := Config.validReg_zero_of_aliasPc hs.legal hm
    obtain rfl | rfl := hi
    · exact ⟨_, execBeq_ok a h0 hr, State.pc_transfer_beq s.pc (s.reg r.toNat) a 4 hs⟩
    · obtain ⟨heq, hne⟩ := State.pc_transfer_beq (s.reg r.toNat) s.pc a 4 hs
      exact ⟨_, execBeq_ok a hr h0, fun h => heq h.symm, fun h => hne h.symm⟩
  · have h0 : (0 : Byte) ∈ i.regOperands := by
      obtain rfl | rfl | rfl | rfl | rfl := hi <;> simp [Instr.regOperands]
    exact ⟨_, exec_invalid h0 (Config.validReg_zero_of_fault hm), rfl⟩

/-! ### Operand 0 as the destination -/

/-- An operation that writes a value to x[0] and then advances changes the pc and the step count alone, and
the next pc is `wrap16(v + w)` (R90). -/
theorem State.destination_zero_spec (x : Word) (w : Nat) (h : s.WF) :
    (((s.setReg 0 x).advance w).countStep).pc.toNat = (x.toNat + w) % 65536 ∧
      s.SameRegsBut (((s.setReg 0 x).advance w).countStep) [] ∧
      s.SameMemory (((s.setReg 0 x).advance w).countStep) ∧
      s.Completed (((s.setReg 0 x).advance w).countStep) := by
  refine ⟨?_, fun q hq _ => State.reg_destination_ne x w hq hq, fun _ => rfl, rfl, rfl, rfl⟩
  rw [State.destination_zero x w h, BitVec.toNat_add, BitVec.toNat_ofNat, Nat.add_mod_mod]

/-- Settles O24: each of the five completes by writing x[0] and advancing, with a value that is `v` modulo
65536; `State.destination_zero_spec` says the rest. -/
theorem destinationZeroWritesPc : Obligations.DestinationZeroWritesPc := by
  unfold Obligations.DestinationZeroWritesPc
  intro s r a i v w hs hm hr ha hi
  have h0 := Config.validReg_zero_of_aliasPc hs.legal hm
  obtain ⟨x, hexec, hx⟩ : ∃ x : Word,
      exec i s = .next (((s.setReg 0 x).advance w).countStep) ∧ x.toNat = v % 65536 := by
    obtain ⟨rfl, rfl, rfl⟩ | ⟨rfl, rfl, rfl⟩ | ⟨rfl, rfl, rfl⟩ | ⟨rfl, rfl, rfl⟩ | ⟨rfl, rfl, rfl⟩ := hi
    · refine ⟨_, execLoad_ok h0 ha, ?_⟩
      rw [BitVec.toNat_ofNat, Memory.readLE_two]
      rfl
    · exact ⟨_, execAdd_ok h0 hr, BitVec.toNat_add s.pc (s.reg r.toNat)⟩
    · refine ⟨_, execSub_ok h0 hr, (BitVec.toNat_sub s.pc (s.reg r.toNat)).trans ?_⟩
      rw [Nat.add_comm]
    · exact ⟨_, execAddi_ok h0, BitVec.toNat_add s.pc 1⟩
    · refine ⟨_, execSubi_ok h0, (BitVec.toNat_sub s.pc 1).trans ?_⟩
      rw [Nat.add_comm]
      rfl
  obtain ⟨hpc, hframe⟩ := State.destination_zero_spec x w hs
  refine ⟨_, hexec, ?_, hframe⟩
  rw [hpc, hx, Nat.mod_add_mod]

end Sys2Proof.Machine
end

section
/-! SUPPORT. LOAD and STORE (R100, R101): the 2-byte value they move, and what each leaves unchanged. -/

namespace Sys2Proof.Machine

variable {s : State}

/-! ### LOAD -/

/-- The value LOAD reads, in terms of the two bytes of the buffer. -/
theorem State.readLE_two_eq_byteAt (s : State) (a : Nat) :
    s.mem.readLE a 2 = (s.byteAt a).toNat + (s.byteAt (a + 1)).toNat * 256 := by
  rw [Memory.readLE_two, Nat.mul_comm, State.byteAt, State.byteAt]

/-- A 2-byte value fits a register, so LOAD wraps nothing. -/
theorem Memory.ofNat_readLE_two_toNat (m : Memory) (a : Nat) :
    (BitVec.ofNat 16 (m.readLE a 2)).toNat = m.readLE a 2 := by
  rw [Memory.readLE_two, ← ofLoHi, ofLoHi_toNat]

/-- An operation that writes register `r` and then advances leaves every other register but the pc, all of
memory, the configuration and the run status alone, and is counted. -/
theorem State.destination_frame (r : Nat) (v : Word) (w : Nat) :
    s.SameRegsBut (((s.setReg r v).advance w).countStep) [r] ∧
      s.SameMemory (((s.setReg r v).advance w).countStep) ∧
      s.Completed (((s.setReg r v).advance w).countStep) :=
  ⟨fun _ hq hqr => State.reg_destination_ne v w hq (List.ne_of_not_mem_cons hqr), fun _ => rfl,
    rfl, rfl, rfl⟩

/-- Settles O11: LOAD completes by writing the 2-byte value and advancing, so `State.destination` and
`State.destination_zero` say the register and the pc, and `State.destination_frame` the rest. -/
theorem loadRule : Obligations.LoadRule := by
  unfold Obligations.LoadRule
  refine ⟨fun _ _ _ => ⟨rfl, rfl⟩, fun s r a hs hr ha => ?_, fun s r a hr => ?_, fun s r a hr ha => ?_⟩
  · refine ⟨_, execLoad_ok hr ha, fun hr0 => ?_, fun hr0 => ?_, State.destination_frame _ _ _⟩
    · obtain ⟨hreg, hpc⟩ := State.destination (BitVec.ofNat 16 (s.mem.readLE a.toNat 2)) 3 hs hr hr0
      refine ⟨hpc, ?_⟩
      rw [hreg, Memory.ofNat_readLE_two_toNat, State.readLE_two_eq_byteAt]
    · rw [hr0, State.destination_zero _ _ hs, State.readLE_two_eq_byteAt, ← BitVec.ofNat_add]
  · exact ⟨_, exec_invalid (List.mem_singleton_self r) hr, rfl⟩
  · exact ⟨_, execLoad_oob hr ha, rfl⟩

/-! ### STORE -/

/-- STORE leaves every byte but its two alone. -/
theorem State.byteAt_execStore_ne {a b : Nat} (v : Word) (h0 : b ≠ a) (h1 : b ≠ a + 1) :
    (((s.setMem (s.mem.writeLE a 2 v.toNat)).advance 3).countStep).byteAt b = s.byteAt b := by
  rw [State.byteAt_countStep, State.byteAt_advance, State.byteAt_setMem, Memory.read_writeLE_two_ne _ _ h0 h1,
    State.byteAt]

/-- An operation that replaces the buffer's contents and then advances moves the pc past itself. -/
theorem State.pc_advance_setMem (m : Memory) (w : Nat) (h : s.WF) :
    (((s.setMem m).advance w).countStep).pc = s.pc + BitVec.ofNat 16 w :=
  State.pc_advance (s := s.setMem m) w h.length_pos

/-- Such an operation leaves every register but the pc, the configuration and the run status alone, and is
counted. -/
theorem State.advance_setMem_frame (m : Memory) (w : Nat) :
    s.SameRegsBut (((s.setMem m).advance w).countStep) [] ∧
      s.Completed (((s.setMem m).advance w).countStep) :=
  ⟨fun _ hq _ => State.reg_advance_ne (s := s.setMem m) w hq, rfl, rfl, rfl⟩

/-- Settles O12: STORE completes by writing the register's two bytes and advancing; `State.byteAt_execStore`
and `State.byteAt_execStore_ne` say the bytes, `State.advance_setMem_frame` the rest. -/
theorem storeRule : Obligations.StoreRule := by
  unfold Obligations.StoreRule
  refine ⟨fun _ _ _ => ⟨rfl, rfl⟩, fun s r a hs hr ha => ?_, fun s r a hr => ?_, fun s r a hr ha => ?_⟩
  · refine ⟨_, execStore_ok hr ha, State.pc_advance_setMem _ _ hs, ?_, State.advance_setMem_frame _ _⟩
    rintro _ rfl
    obtain ⟨hlo, hhi⟩ := State.byteAt_execStore (s.reg r.toNat) hs ha
    exact ⟨rfl, hlo, hhi, fun _ h0 h1 => State.byteAt_execStore_ne _ h0 h1⟩
  · exact ⟨_, exec_invalid (List.mem_singleton_self r) hr, rfl⟩
  · exact ⟨_, execStore_oob hr ha, rfl⟩

end Sys2Proof.Machine
end

section
/-! SUPPORT. ADD, SUB, ADDI and SUBI (R110 to R113): the state each completes in, the signed reading of the
result (R114), and one register as source and destination (R116). -/

namespace Sys2Proof.Machine

variable {s : State}

/-! ### Completion and errors -/

/-- Everything an operation does that writes `v` to a valid destination and then advances: a general register
holds `v`, register 0 turns it into the next pc `z` (R90), and the rest is `State.destination_frame`. -/
theorem State.destination_spec {d : Byte} {v z : Word} (w : Nat) (h : s.WF) (hd : s.cfg.validReg d = true)
    (hz : d.toNat = 0 → v + BitVec.ofNat 16 w = z) :
    let t := ((s.setReg d.toNat v).advance w).countStep
    (d.toNat ≠ 0 → t.pc = s.pc + BitVec.ofNat 16 w ∧ t.reg d.toNat = v) ∧ (d.toNat = 0 → t.pc = z) ∧
      s.SameRegsBut t [d.toNat] ∧ s.SameMemory t ∧ s.Completed t := by
  refine ⟨fun hd0 => (State.destination v w h hd hd0).symm, fun hd0 => ?_, State.destination_frame _ _ _⟩
  rw [hd0, State.destination_zero v w h, hz hd0]

/-- Either register operand of a two-register instruction can be the one that raises (R142). -/
theorem exec_invalid_of_regOperands_eq_pair {i : Instr} {d r : Byte} (hi : i.regOperands = [d, r])
    (h : s.cfg.validReg d = false ∨ s.cfg.validReg r = false) :
    ∃ t, exec i s = .next t ∧ s.ErrorOf .invalidRegisterIndex t := by
  obtain h | h := h
  · exact ⟨_, exec_invalid (r := d) (by simp [hi]) h, rfl⟩
  · exact ⟨_, exec_invalid (r := r) (by simp [hi]) h, rfl⟩

/-- Settles O13: `execAdd_ok` gives the sum that is written, and `State.destination_spec` what that does. -/
theorem addRule : Obligations.AddRule := by
  unfold Obligations.AddRule
  refine ⟨fun _ _ _ => ⟨rfl, rfl⟩, fun s d r hs hd hr => ⟨_, execAdd_ok hd hr, ?_⟩,
    fun s d r h => exec_invalid_of_regOperands_eq_pair rfl h⟩
  refine State.destination_spec 3 hs hd fun hd0 => ?_
  rw [hd0]
  rfl

/-- Settles O14: `execSub_ok` gives the difference that is written, and `State.destination_spec` what that
does. -/
theorem subRule : Obligations.SubRule := by
  unfold Obligations.SubRule
  refine ⟨fun _ _ _ => ⟨rfl, rfl⟩, fun s d r hs hd hr => ⟨_, execSub_ok hd hr, ?_⟩,
    fun s d r h => exec_invalid_of_regOperands_eq_pair rfl h⟩
  refine State.destination_spec 3 hs hd fun hd0 => ?_
  rw [hd0]
  rfl

/-- Settles O15: as for ADD, with the constant 1; on the pc the increment and the width add up to 3. -/
theorem addiRule : Obligations.AddiRule := by
  unfold Obligations.AddiRule
  refine ⟨fun _ _ => ⟨rfl, rfl⟩, fun s r hs hr => ⟨_, execAddi_ok hr, ?_⟩,
    fun s r hr => ⟨_, exec_invalid (List.mem_singleton_self r) hr, rfl⟩⟩
  refine State.destination_spec 2 hs hr fun hr0 => ?_
  rw [hr0, BitVec.add_assoc]
  rfl

/-- Settles O16: as for SUB, with the constant 1; on the pc the decrement leaves 1 of the width. -/
theorem subiRule : Obligations.SubiRule := by
  unfold Obligations.SubiRule
  refine ⟨fun _ _ => ⟨rfl, rfl⟩, fun s r hs hr => ⟨_, execSubi_ok hr, ?_⟩,
    fun s r hr => ⟨_, exec_invalid (List.mem_singleton_self r) hr, rfl⟩⟩
  refine State.destination_spec 2 hs hr fun hr0 => ?_
  rw [hr0, BitVec.sub_eq_add_neg, BitVec.add_assoc]
  rfl

/-! ### The signed result -/

theorem sint16_bounds (x : Word) : -32768 ≤ sint16 x ∧ sint16 x ≤ 32767 := by
  have := x.isLt
  unfold sint16
  split <;> omega

theorem sint16_add (x y : Word) : sint16 (x + y) = (sint16 x + sint16 y).bmod 65536 := by
  simp only [sint16_eq_toInt, BitVec.toInt_add, Nat.reducePow]

theorem sint16_sub (x y : Word) : sint16 (x - y) = (sint16 x - sint16 y).bmod 65536 := by
  simp only [sint16_eq_toInt, BitVec.toInt_sub, Nat.reducePow]

/-- The balanced residue of an integer less than one modulus outside the signed range, written as R114
writes it. -/
theorem bmod_65536_eq_ite {z : Int} (hl : -65536 ≤ z) (hh : z ≤ 65535) :
    z.bmod 65536 = if z < -32768 then z + 65536 else if z > 32767 then z - 65536 else z := by
  rw [Int.bmod_def]
  split_ifs <;> omega

/-- Settles O21: each of the four writes a word whose signed reading is the balanced residue of the true
result, and that result is less than 65536 away from the signed range. -/
theorem signedArithmeticWraps : Obligations.SignedArithmeticWraps := by
  unfold Obligations.SignedArithmeticWraps
  intro s d r hs hd hr hd0 i z hi
  have hx := sint16_bounds (s.reg d.toNat)
  have hy := sint16_bounds (s.reg r.toNat)
  obtain ⟨v, w, hexec, hv, hl, hh⟩ : ∃ (v : Word) (w : Nat),
      exec i s = .next (((s.setReg d.toNat v).advance w).countStep) ∧
        sint16 v = z.bmod 65536 ∧ -65536 ≤ z ∧ z ≤ 65535 := by
    obtain ⟨rfl, rfl⟩ | ⟨rfl, rfl⟩ | ⟨rfl, rfl⟩ | ⟨rfl, rfl⟩ := hi
    · exact ⟨_, _, execAdd_ok hd hr, sint16_add _ _, by omega, by omega⟩
    · exact ⟨_, _, execSub_ok hd hr, sint16_sub _ _, by omega, by omega⟩
    · exact ⟨_, _, execAddi_ok hd, sint16_add _ 1, by omega, by omega⟩
    · exact ⟨_, _, execSubi_ok hd, sint16_sub _ 1, by omega, by omega⟩
  refine ⟨_, hexec, rfl, ?_⟩
  rw [(State.destination v w hs hd hd0).1, hv, bmod_65536_eq_ite hl hh]

/-! ### One register as source and destination -/

/-- Settles O22: the written values are `x + x` and `x - x`; on register 0 the first is advanced past the
instruction by `State.destination_zero_spec`. -/
theorem sourceMayBeDestination : Obligations.SourceMayBeDestination := by
  unfold Obligations.SourceMayBeDestination
  intro s r hs hr
  refine ⟨fun hr0 => ⟨_, execAdd_ok hr hr, ?_⟩, fun hr0 => ⟨_, execSub_ok hr hr, ?_⟩,
    fun hr0 => ⟨_, execAdd_ok hr hr, ?_⟩⟩
  · rw [(State.destination _ 3 hs hr hr0).1, BitVec.toNat_add, two_mul]
  · rw [(State.destination _ 3 hs hr hr0).1, BitVec.sub_self]
    rfl
  · rw [hr0, (State.destination_zero_spec _ 3 hs).1, BitVec.toNat_add, ← two_mul, Nat.mod_add_mod]
    rfl

end Sys2Proof.Machine
end

section
/-! SUPPORT. JUMP, BEQ and BEQZ (R120 to R122): the state each completes in; and the step that follows a taken
transfer, which is the one that checks the target (R123). -/

namespace Sys2Proof.Machine

variable {s t : State}

/-! ### Completion -/

/-- A taken transfer leaves the pc at the address operand, unchecked and not scaled (R123). -/
theorem State.pc_transfer_taken_toNat (a : Byte) (w : Nat) (h : s.WF) :
    ((s.transfer true a w).countStep).pc.toNat = a.toNat := by
  rw [State.pc_countStep, State.pc_transfer_taken a w h.length_pos, targetPc_toNat]

/-- A transfer, taken or not, leaves every register but the pc, all of memory, the configuration and the run
status alone, and is counted. -/
theorem State.transfer_frame (b : Bool) (a : Byte) (w : Nat) :
    s.SameRegsBut ((s.transfer b a w).countStep) [] ∧ s.SameMemory ((s.transfer b a w).countStep) ∧
      s.Completed ((s.transfer b a w).countStep) :=
  ⟨fun _ hq _ => s.reg_transfer_ne b a w hq, s.byteAt_transfer b a w,
    s.transfer_cfg b a w, s.transfer_status b a w, congrArg (· + 1) (s.transfer_steps b a w)⟩

/-- Settles O17: JUMP completes by a taken transfer. -/
theorem jumpRule : Obligations.JumpRule := by
  unfold Obligations.JumpRule
  exact ⟨fun _ _ => ⟨rfl, rfl⟩, fun _ a hs =>
    ⟨_, execJump_ok a, State.pc_transfer_taken_toNat a 2 hs, State.transfer_frame true a 2⟩⟩

/-- Settles O18: BEQ completes by a transfer that is taken when the two patterns are equal;
`State.pc_transfer_beq` gives both outcomes. -/
theorem beqRule : Obligations.BeqRule := by
  unfold Obligations.BeqRule
  refine ⟨fun _ _ _ _ => ⟨rfl, rfl⟩, fun s i j a hs hi hj => ?_,
    fun s i j a h => exec_invalid_of_regOperands_eq_pair rfl h⟩
  obtain ⟨heq, hne⟩ := State.pc_transfer_beq (s.reg i.toNat) (s.reg j.toNat) a 4 hs
  exact ⟨_, execBeq_ok a hi hj, heq, hne, State.transfer_frame _ a 4⟩

/-- Settles O19: BEQZ completes by a transfer that is taken when x[1] equals 0, a comparison like BEQ's. -/
theorem beqzRule : Obligations.BeqzRule := by
  unfold Obligations.BeqzRule
  refine ⟨fun _ _ => ⟨rfl, rfl⟩, fun s a hs => ?_⟩
  obtain ⟨heq, hne⟩ := State.pc_transfer_beq (s.reg 1) 0 a 2 hs
  exact ⟨_, execBeqz_ok a, heq, hne, State.transfer_frame _ a 2⟩

/-! ### The step at the target -/

/-- A pc in the lower half of the 16-bit range is its own signed reading. -/
theorem State.instrAddr_of_pc_lt (h : s.pc.toNat < 32768) : s.instrAddr = s.pc.toNat :=
  if_pos h

theorem State.Ready.step_of_holds {i : Instr} (hr : s.Ready) (h : s.Holds i) : step s = exec i s :=
  step_of_fetch_ok hr.legal hr.running (State.fetch_of_holds hr.legal hr.budgetSpent_eq h)

/-- R141 (a): a due step whose pc is outside the buffer raises. -/
theorem State.Ready.step_of_pc_outside (hr : s.Ready) (h : s.instrAddr < 0 ∨ s.instrAddr ≥ s.memSize) :
    step s = .next (s.raise .outOfBoundsAccess) := by
  refine step_of_fetch_error hr.legal hr.running ?_
  simp [State.fetch, hr.budgetSpent_eq, State.fetch8_error h]

/-- R143: a due step whose pc is at a byte of the buffer that is no opcode raises. -/
theorem State.Ready.step_of_unknownOpcode {p : Nat} (hr : s.Ready) (hp : s.instrAddr = p) (h : p < s.memSize)
    (hd : s.cfg.opcodes.decodeOpcode (s.byteAt p) = none) : step s = .next (s.raise .unknownOpcode) := by
  refine step_of_fetch_error hr.legal hr.running ?_
  simp [State.fetch, hr.budgetSpent_eq, hp, State.fetch8_ok h, hd]

/-- After an instruction other than HALT the next step is due, unless the instruction spent the step budget. -/
theorem State.Ready.of_completed (hr : s.Ready) (hc : s.Completed t)
    (hl : ∀ l, s.cfg.stepLimit = some l → s.steps + 1 < l) : t.Ready := by
  obtain ⟨hcfg, hstatus, hsteps⟩ := hc
  refine ⟨?_, ?_, fun l hlim => ?_⟩
  · rw [hcfg]
    exact hr.legal
  · rw [hstatus]
    exact hr.running
  · rw [hsteps]
    exact hl l (by rw [← hcfg]; exact hlim)

/-- Settles O34: all three complete by the same taken transfer; by its frame the next step is due, over the
same buffer and opcode map, and its pc is the target. -/
theorem targetsCheckedByNextFetch : Obligations.TargetsCheckedByNextFetch := by
  unfold Obligations.TargetsCheckedByNextFetch
  intro s a i hs hr hi htaken
  have hexec : exec i s = .next ((s.transfer true a i.width).countStep) := by
    obtain rfl | ⟨r, q, rfl, hvr, hvq, heq⟩ | ⟨rfl, hzero⟩ := htaken
    · exact execJump_ok a
    · rw [execBeq_ok a hvr hvq, beq_iff_eq.mpr heq]
      rfl
    · rw [execBeqz_ok a, beq_iff_eq.mpr hzero]
      rfl
  have hpc := State.pc_transfer_taken_toNat a i.width hs
  obtain ⟨-, hmem, hdone⟩ := State.transfer_frame (s := s) true a i.width
  refine ⟨_, (hr.step_of_holds hi).trans hexec, hpc, hdone.status.trans hr.running, hdone.steps,
    fun hl => ?_⟩
  generalize (s.transfer true a i.width).countStep = t at hpc hmem hdone ⊢
  have hrt : t.Ready := hr.of_completed hdone hl
  have hsize : t.memSize = s.memSize := congrArg Config.memSize hdone.cfg
  have hp : t.instrAddr = a.toNat := by
    rw [State.instrAddr_of_pc_lt (by omega), hpc]
  refine ⟨fun hout => ?_, fun hin hd => ?_⟩
  · exact ⟨_, hrt.step_of_pc_outside (by omega), rfl⟩
  · refine ⟨_, hrt.step_of_unknownOpcode hp (by omega) ?_, rfl⟩
    rw [hdone.cfg, hmem]
    exact hd

end Sys2Proof.Machine
end

section
/-! SUPPORT. HALT (R130): the state it completes in, what STATUS reads there (R31), and that a step from a final
state faults (R88; log 9). -/

namespace Sys2Proof.Machine

variable {s : State}

/-- No step applies to a final state, halted or in error (R88); the model answers a fault there (log 9). -/
theorem step_of_final (hl : s.cfg.legal = true) (hs : s.status ≠ .running) : step s = .fault .runEnded := by
  rw [step, if_pos hl]
  cases h : s.status with
  | running => exact absurd h hs
  | halted => rfl
  | error k p => rfl

theorem State.statusReg_of_halted (h : s.status = .halted) : s.statusReg = 1 := by
  rw [State.statusReg, h]

/-- Changing the run status and counting the step leaves every register and all of memory alone;
`State.pc_setStatus` says it of the pc, which `SameRegsBut` leaves out. -/
theorem State.setStatus_countStep_frame (st : RunStatus) :
    s.SameRegsBut ((s.setStatus st).countStep) [] ∧ s.SameMemory ((s.setStatus st).countStep) :=
  ⟨fun q _ _ => s.reg_setStatus st q, fun a => s.byteAt_setStatus st a⟩

/-- Settles O20: HALT completes by setting the status and counting the step (`execHalt_ok`), so the state after
it is final and `step_of_final` gives the step from there. -/
theorem haltRule : Obligations.HaltRule := by
  unfold Obligations.HaltRule
  refine ⟨fun _ => ⟨rfl, rfl⟩, fun s => ⟨(s.setStatus .halted).countStep, execHalt_ok, ?_⟩⟩
  have hstatus : ((s.setStatus .halted).countStep).status = .halted := rfl
  obtain ⟨hregs, hmem⟩ := State.setStatus_countStep_frame (s := s) .halted
  refine ⟨hstatus, State.statusReg_of_halted hstatus, s.pc_setStatus .halted, rfl, rfl, hregs, hmem,
    fun hl => step_of_final hl ?_⟩
  rw [hstatus]
  decide

end Sys2Proof.Machine
end

section
/-! SUPPORT. The errors (R140 to R149): what stands behind each kind, that a step which ends in an error had that
cause and changed nothing but the record, and the order in which the checks come. -/

namespace Sys2Proof

/-- R142: under `Fault` the operand 0 is not valid either. -/
theorem Config.validReg_eq_false_iff_of_fault {c : Config} {r : Byte} (hm : c.reg0Mode = .fault) :
    c.validReg r = false ↔ r.toNat = 0 ∨ c.numRegs ≤ r.toNat := by
  rw [Config.validReg, hm, decide_eq_false_iff_not]
  omega

theorem Config.validReg_eq_false_iff_of_aliasPc {c : Config} {r : Byte} (hm : c.reg0Mode = .aliasPc) :
    c.validReg r = false ↔ c.numRegs ≤ r.toNat := by
  rw [Config.validReg, hm, decide_eq_false_iff_not, Nat.not_lt]

end Sys2Proof

namespace Sys2Proof.Machine

variable {s t : State} {i : Instr} {k : ErrorKind} {p : Word}

/-! ### An instruction raises or completes -/

/-- The data access of the instruction leaves the buffer (R141 (c)); only LOAD and STORE have one. -/
def State.AccessOutside (s : State) (i : Instr) : Prop :=
  ∃ r a, (i = .load r a ∨ i = .store r a) ∧ s.memSize < a.toNat + 2

/-- `exec_cases` with the completing instructions taken together: the operand check comes first, the bounds check
of the data access second, and an instruction that passes both is counted, and keeps the run status or halts. -/
theorem exec_raises_or_completes (i : Instr) (s : State) :
    (∃ r ∈ i.regOperands, s.cfg.validReg r = false ∧ exec i s = .next (s.raise .invalidRegisterIndex)) ∨
    ((∀ r ∈ i.regOperands, s.cfg.validReg r = true) ∧
      ((s.AccessOutside i ∧ exec i s = .next (s.raise .outOfBoundsAccess)) ∨
       (¬ s.AccessOutside i ∧ ∃ t, exec i s = .next t ∧ t.steps = s.steps + 1 ∧
          (t.status = s.status ∨ t.status = .halted)))) := by
  rcases exec_cases i s with hinv | ⟨hv, ⟨r, a, hi, ha, he⟩ | ⟨r, a, rfl, ha, he⟩ | ⟨r, a, rfl, ha, he⟩ |
    ⟨d, v, w, -, -, hi, he⟩ | ⟨b, a, w, -, hi, he⟩ | ⟨rfl, he⟩⟩
  · exact .inl hinv
  · exact .inr ⟨hv, .inl ⟨⟨r, a, hi, ha⟩, he⟩⟩
  all_goals refine .inr ⟨hv, .inr ⟨?_, _, he, by simp, by simp⟩⟩
  · rintro ⟨r', a', hi | hi, hout⟩ <;> cases hi
    omega
  · rintro ⟨r', a', hi | hi, hout⟩ <;> cases hi
    omega
  · rintro ⟨r', a', rfl | rfl, -⟩ <;> simp at hi
  · rintro ⟨r', a', rfl | rfl, -⟩ <;> simp at hi
  · rintro ⟨r', a', hi | hi, -⟩ <;> cases hi

/-! ### The fetch -/

theorem State.fetch_of_budgetSpent (h : s.budgetSpent = true) : s.fetch = .error .stepLimitExceeded := by
  rw [State.fetch, if_pos h]

/-- What the fetch answers stands at the pc, and the budget is not spent. -/
theorem State.holds_of_fetch_ok (h : s.fetch = .ok i) : s.budgetSpent = false ∧ s.Holds i := by
  rcases s.fetch_cases with ⟨-, hf⟩ | ⟨hb, ⟨-, hf⟩ | ⟨-, -, ⟨-, hf⟩ | ⟨m, -, ⟨-, hf⟩ | ⟨j, -, hj, hf⟩⟩⟩⟩
  all_goals
    rw [hf] at h
    cases h
  exact ⟨hb, hj⟩

/-! ### The cause of an error -/

/-- What stands behind each error kind: R144, R141 (a), R143, R141 (b), R142 and R141 (c), in the order in which
R81 checks them. -/
inductive State.Cause (s : State) : ErrorKind → Prop where
  | limitReached (l : Nat) : s.cfg.stepLimit = some l → l ≤ s.steps → s.Cause .stepLimitExceeded
  | pcOutside : s.instrAddr < 0 ∨ s.instrAddr ≥ s.memSize → s.Cause .outOfBoundsAccess
  | noOpcode : 0 ≤ s.instrAddr → s.instrAddr < s.memSize →
      s.cfg.opcodes.decodeOpcode (s.byteAt s.instrAddr.toNat) = none → s.Cause .unknownOpcode
  | operandsOutside (m : Mnemonic) : s.cfg.opcodes.decodeOpcode (s.byteAt s.instrAddr.toNat) = some m →
      s.instrAddr + m.width > s.memSize → s.Cause .outOfBoundsAccess
  | operandInvalid (i : Instr) (r : Byte) : s.Holds i → r ∈ i.regOperands → s.cfg.validReg r = false →
      s.Cause .invalidRegisterIndex
  | accessOutside (i : Instr) : s.Holds i → s.AccessOutside i → s.Cause .outOfBoundsAccess

/-- An error of the fetch has one of the first four causes. -/
theorem State.cause_of_fetch_error (h : s.fetch = .error k) : s.Cause k := by
  rcases s.fetch_cases with ⟨hb, hf⟩ | ⟨-, ⟨hp, hf⟩ | ⟨h0, h1, ⟨hd, hf⟩ | ⟨m, hd, ⟨hw, hf⟩ | ⟨i, -, -, hf⟩⟩⟩⟩
  all_goals
    rw [hf] at h
    cases h
  · obtain ⟨l, hl, hle⟩ := State.budgetSpent_iff.mp hb
    exact .limitReached l hl hle
  · exact .pcOutside hp
  · exact .noOpcode h0 h1 hd
  · exact .operandsOutside m hd hw

/-- An error of an instruction that stands at the pc has one of the last two causes, and changes nothing but the
record. -/
theorem State.Holds.cause_of_exec_error (hr : s.status = .running) (hi : s.Holds i) (h : exec i s = .next t)
    (ht : t.status = .error k p) : t = s.raise k ∧ s.Cause k := by
  rcases exec_raises_or_completes i s with ⟨r, hmem, hv, he⟩ | ⟨-, ⟨hout, he⟩ | ⟨-, u, he, -, hu⟩⟩
  all_goals
    rw [he] at h
    cases h
  · cases ht
    exact ⟨rfl, .operandInvalid i r hi hmem hv⟩
  · cases ht
    exact ⟨rfl, .accessOutside i hi hout⟩
  · simp [ht, hr] at hu

/-- R145, R146: a step that ends in an error is the state before it with the error recorded at its own pc, and
the error had its cause. -/
theorem step_error (h : step s = .next t) (ht : t.status = .error k p) :
    s.ErrorOf k t ∧ p = s.pc ∧ s.Cause k := by
  obtain ⟨-, hr, ⟨k', hf, rfl⟩ | ⟨i, -, hi, -, he⟩⟩ := step_cases h
  · cases ht
    exact ⟨rfl, rfl, State.cause_of_fetch_error hf⟩
  · obtain ⟨rfl, hc⟩ := hi.cause_of_exec_error hr he ht
    cases ht
    exact ⟨rfl, rfl, hc⟩

/-! ### The order of the checks -/

theorem State.Holds.decodeOpcode_eq (hl : s.cfg.legal = true) (h : s.Holds i) :
    s.cfg.opcodes.decodeOpcode (s.byteAt s.instrAddr.toNat) = some i.mnemonic := by
  have hbytes := h.bytes
  rw [← encode_length s.cfg.opcodes i, encode, List.length_cons, Memory.slice_succ, List.cons.injEq] at hbytes
  rw [State.byteAt, hbytes.1]
  exact OpcodeMap.decodeOpcode_byte (Config.legal_injective hl) _

/-- The bytes at the offsets of R142 are the register operands of the instruction that stands at the pc. -/
theorem State.Holds.map_regOffsets (h : s.Holds i) :
    (regOffsets i.mnemonic).map (fun k => s.byteAt (s.instrAddr.toNat + k)) = i.regOperands := by
  have hb := h.bytes
  cases i <;>
    simp_all [regOffsets, Instr.mnemonic, Instr.regOperands, State.byteAt, Instr.width, Mnemonic.width,
      Memory.slice, encode, Instr.operands]

/-- The byte at p + 2 is the address operand of a LOAD or STORE that stands at the pc. -/
theorem State.Holds.dataOutOfBounds_iff (h : s.Holds i) :
    s.dataOutOfBounds s.instrAddr.toNat i.mnemonic = true ↔ s.AccessOutside i := by
  have hb := h.bytes
  cases i <;>
    simp_all [State.dataOutOfBounds, State.AccessOutside, Instr.mnemonic, State.byteAt, Instr.width,
      Mnemonic.width, Memory.slice, encode, Instr.operands]

/-- The test R149 makes of the limit is that of the fetch. -/
theorem State.budgetSpent_eq_any : s.cfg.stepLimit.any (fun l => decide (l ≤ s.steps)) = s.budgetSpent := by
  unfold State.budgetSpent
  cases s.cfg.stepLimit <;> rfl

/-- An error of the fetch is the first condition that fails. -/
theorem State.firstFailure_of_fetch_error (h : s.fetch = .error k) : s.firstFailure = some k := by
  rw [State.firstFailure, State.budgetSpent_eq_any]
  rcases s.fetch_cases with ⟨hb, hf⟩ | ⟨hb, ⟨hp, hf⟩ | ⟨h0, h1, ⟨hd, hf⟩ | ⟨m, hd, ⟨hw, hf⟩ | ⟨i, -, -, hf⟩⟩⟩⟩
  all_goals
    rw [hf] at h
    cases h
  · rw [if_pos hb]
  · rw [hb, if_neg Bool.false_ne_true, if_pos hp]
  · rw [hb, if_neg Bool.false_ne_true, if_neg (by omega), hd]
  · rw [hb, if_neg Bool.false_ne_true, if_neg (by omega), hd]
    exact if_pos hw

/-- With an instruction at the pc and the budget not spent only its two own checks are left, operands first. -/
theorem State.Holds.firstFailure_eq (hl : s.cfg.legal = true) (hb : s.budgetSpent = false) (hi : s.Holds i) :
    s.firstFailure =
      if i.regOperands.any (fun r => !s.cfg.validReg r) then some .invalidRegisterIndex
      else if s.dataOutOfBounds s.instrAddr.toNat i.mnemonic then some .outOfBoundsAccess
      else none := by
  have hlow := hi.low
  have hhigh := hi.high
  have hw := Instr.one_le_width i
  rw [State.firstFailure, State.budgetSpent_eq_any, hb, if_neg Bool.false_ne_true, if_neg (by omega),
    hi.decodeOpcode_eq hl, ← hi.map_regOffsets, List.any_map]
  exact if_neg (Int.not_lt.mpr hhigh)

/-- A due step raises the first condition that fails, or completes when none does. -/
theorem step_of_firstFailure (hl : s.cfg.legal = true) (hr : s.status = .running) :
    (∃ k, s.firstFailure = some k ∧ step s = .next (s.raise k)) ∨
    (s.firstFailure = none ∧ ∃ t, step s = .next t ∧ t.steps = s.steps + 1 ∧
      (t.status = .running ∨ t.status = .halted)) := by
  cases hf : s.fetch with
  | error k => exact .inl ⟨k, State.firstFailure_of_fetch_error hf, step_of_fetch_error hl hr hf⟩
  | ok i =>
    obtain ⟨hb, hi⟩ : s.budgetSpent = false ∧ s.Holds i := State.holds_of_fetch_ok hf
    rw [step_of_fetch_ok hl hr hf, hi.firstFailure_eq hl hb, ← hr]
    rcases exec_raises_or_completes i s with ⟨r, hmem, hv, he⟩ | ⟨hv, hrest⟩
    · refine .inl ⟨_, if_pos ?_, he⟩
      exact List.any_eq_true.mpr ⟨r, hmem, by simp [hv]⟩
    · have hvalid : ¬ i.regOperands.any (fun r => !s.cfg.validReg r) = true := by simpa using hv
      rw [if_neg hvalid]
      rcases hrest with ⟨hout, he⟩ | ⟨hin, ht⟩
      · exact .inl ⟨_, if_pos (hi.dataOutOfBounds_iff.mpr hout), he⟩
      · exact .inr ⟨if_neg (mt hi.dataOutOfBounds_iff.mp hin), ht⟩

/-- Settles O30: `step_of_firstFailure` says both clauses at once. -/
theorem firstFailureIsReported : Obligations.FirstFailureIsReported := by
  unfold Obligations.FirstFailureIsReported
  intro s hl hr
  rcases step_of_firstFailure hl hr with ⟨k, hk, hstep⟩ | ⟨hnone, hdone⟩
  · rw [hk]
    refine ⟨fun k' hk' => ?_, fun h => absurd h (Option.some_ne_none k)⟩
    cases hk'
    exact ⟨_, hstep, rfl⟩
  · rw [hnone]
    exact ⟨fun k hk => absurd hk.symm (Option.some_ne_none k), fun _ => hdone⟩

/-- Settles O31: both clauses are `step_error`, whatever ran before the step. -/
theorem errorsArePrecise : Obligations.ErrorsArePrecise := by
  unfold Obligations.ErrorsArePrecise
  refine ⟨fun s t k p h ht => ?_, fun s u t n k p _ h ht a => ?_⟩
  · obtain ⟨herr, hp, -⟩ := step_error h ht
    exact ⟨herr, hp⟩
  · obtain ⟨rfl, -, -⟩ := step_error h ht
    rfl

/-! ### Each error kind -/

/-- Settles O26: a spent budget is the first thing the fetch tests, and the only cause of this kind. -/
theorem stepLimitExceededExactly : Obligations.StepLimitExceededExactly := by
  unfold Obligations.StepLimitExceededExactly
  intro s hl hr
  have reached : ∀ t p, step s = .next t → t.status = .error .stepLimitExceeded p →
      ∃ l, s.cfg.stepLimit = some l ∧ l ≤ s.steps := by
    intro t p h ht
    obtain ⟨-, -, hc⟩ := step_error h ht
    cases hc with
    | limitReached l hlim hle => exact ⟨l, hlim, hle⟩
  refine ⟨fun l hlim hle => ?_, reached, fun hnone t p h ht => ?_⟩
  · have hb := State.budgetSpent_iff.mpr ⟨l, hlim, hle⟩
    exact ⟨_, step_of_fetch_error hl hr (State.fetch_of_budgetSpent hb), rfl⟩
  · obtain ⟨l, hlim, -⟩ := reached t p h ht
    simp [hnone] at hlim

/-- Settles O27: `State.Ready.step_of_unknownOpcode` one way, the single cause of this kind the other. -/
theorem unknownOpcodeExactly : Obligations.UnknownOpcodeExactly := by
  unfold Obligations.UnknownOpcodeExactly
  intro s hs
  refine ⟨fun h0 h1 hd => ?_, fun t p h ht => ?_⟩
  · exact ⟨_, hs.step_of_unknownOpcode (Int.toNat_of_nonneg h0).symm (by omega) hd, rfl⟩
  · obtain ⟨-, hp, hc⟩ := step_error h ht
    cases hc with
    | noOpcode h0 h1 hd => exact ⟨hp, h0, h1, hd⟩

/-- R141 (b): a due step whose instruction runs past the end of the buffer raises. -/
theorem State.Ready.step_of_operands_outside {m : Mnemonic} (hs : s.Ready) (h0 : 0 ≤ s.instrAddr)
    (h1 : s.instrAddr < s.memSize) (hd : s.cfg.opcodes.decodeOpcode (s.byteAt s.instrAddr.toNat) = some m)
    (hw : s.instrAddr + m.width > s.memSize) : step s = .next (s.raise .outOfBoundsAccess) := by
  refine step_of_fetch_error hs.legal hs.running ?_
  have hop := State.fetch8_ok (s := s) (a := s.instrAddr.toNat) (by omega)
  rw [Int.toNat_of_nonneg h0] at hop
  simp [State.fetch, State.fetchOperands, hs.budgetSpent_eq, hop, hd, hw]

/-- Settles O28: one lemma for each of the three places, and its three causes back. -/
theorem outOfBoundsAccessExactly : Obligations.OutOfBoundsAccessExactly := by
  unfold Obligations.OutOfBoundsAccessExactly
  intro s hs
  refine ⟨fun hp => ⟨_, hs.step_of_pc_outside hp, rfl⟩,
    fun m h0 h1 hd hw => ⟨_, hs.step_of_operands_outside h0 h1 hd hw, rfl⟩, ?_, fun t p h ht => ?_⟩
  · rintro r a i (rfl | rfl) hi hv ha
    · exact ⟨_, (hs.step_of_holds hi).trans (execLoad_oob hv ha), rfl⟩
    · exact ⟨_, (hs.step_of_holds hi).trans (execStore_oob hv ha), rfl⟩
  · obtain ⟨-, hp, hc⟩ := step_error h ht
    refine ⟨hp, ?_⟩
    cases hc with
    | pcOutside hpc => exact .inl hpc
    | operandsOutside m hd hw => exact .inr (.inl ⟨m, hd, hw⟩)
    | accessOutside i hi hout =>
      obtain ⟨r, a, rfl | rfl, ha⟩ := hout
      · exact .inr (.inr ⟨r, a, .inl hi, ha⟩)
      · exact .inr (.inr ⟨r, a, .inr hi, ha⟩)

/-- Settles O29: `exec_invalid` one way, the single cause of this kind the other. -/
theorem invalidRegisterIndexExactly : Obligations.InvalidRegisterIndexExactly := by
  unfold Obligations.InvalidRegisterIndexExactly
  refine ⟨fun _ _ _ _ => ⟨rfl, rfl, rfl, rfl, rfl, rfl, rfl, rfl, rfl, rfl⟩,
    fun _ _ => ⟨Config.validReg_eq_false_iff_of_fault, Config.validReg_eq_false_iff_of_aliasPc⟩,
    fun s hs => ⟨fun i r hi hmem hv => ?_, fun t p h ht => ?_⟩⟩
  · exact ⟨_, (hs.step_of_holds hi).trans (exec_invalid hmem hv), rfl⟩
  · obtain ⟨-, hp, hc⟩ := step_error h ht
    cases hc with
    | operandInvalid i r hi hmem hv => exact ⟨hp, i, r, hi, hmem, hv⟩

end Sys2Proof.Machine
end

section
/-! SUPPORT. The state at the start of a run (R160): its registers, and the result registers right after
reset (R38). -/

namespace Sys2Proof.Machine

variable {s : State}

/-! ### Registers and memory at the start of a run -/

/-- R160 gives the value below K, and the model's reading of an index past the list (log 13) beyond it. -/
@[simp] theorem State.reg_startRun (c : Config) (m : Memory) (i : Nat) : (State.startRun c m).reg i = 0 := by
  rw [State.reg, List.getD_eq_getElem?_getD]
  exact List.getElem?_getD_replicate_default_eq 0 c.numRegs i

@[simp] theorem State.pc_startRun (c : Config) (m : Memory) : (State.startRun c m).pc = 0 :=
  State.reg_startRun c m 0

@[simp] theorem State.byteAt_startRun (c : Config) (m : Memory) (a : Nat) :
    (State.startRun c m).byteAt a = m.read a := rfl

/-! ### The result registers right after reset -/

theorem State.justReset_iff : s.justReset = true ↔ s.status = .running ∧ s.steps = 0 :=
  decide_eq_true_iff

theorem State.statusReg_of_running (h : s.status = .running) : s.statusReg = 0 := by
  rw [State.statusReg, h]

/-- R38: the one case besides `Error` in which ERR_KIND is no free value (log 11). -/
theorem State.errKindReg_of_justReset (h : s.justReset = true) : s.errKindReg = 0 := by
  obtain ⟨hr, -⟩ := State.justReset_iff.mp h
  rw [State.errKindReg, hr]
  exact if_pos h

/-- R38: the one case besides `Error` in which ERR_PC is no free value (log 11). -/
theorem State.errPcReg_of_justReset (h : s.justReset = true) : s.errPcReg = 0 := by
  obtain ⟨hr, -⟩ := State.justReset_iff.mp h
  rw [State.errPcReg, hr]
  exact if_pos h

theorem State.justReset_startRun (c : Config) (m : Memory) : (State.startRun c m).justReset = true :=
  State.justReset_iff.mpr ⟨State.startRun_status c m, State.startRun_steps c m⟩

/-! ### A new run after any state -/

/-- R160: a restart does not write the buffer. -/
theorem State.sameMemory_restart (s : State) : s.SameMemory s.restart :=
  State.byteAt_startRun s.cfg s.mem

/-- Settles O36: a run starts with all registers 0 and just reset, which fixes ERR_KIND and ERR_PC too; a
restart is such a start by definition. -/
theorem resetValues : Obligations.ResetValues := by
  unfold Obligations.ResetValues
  refine ⟨?_, fun s => ⟨rfl, s.sameMemory_restart⟩⟩
  rintro c mem s rfl
  have hreset := State.justReset_startRun c mem
  exact ⟨State.length_startRun c mem, State.reg_startRun c mem, State.pc_startRun c mem,
    State.startRun_status c mem, State.statusReg_of_running (State.startRun_status c mem),
    State.errKindReg_of_justReset hreset, State.errPcReg_of_justReset hreset,
    State.startRun_steps c mem, State.startRun_cfg c mem, State.byteAt_startRun c mem⟩

end Sys2Proof.Machine
end

section
/-! SUPPORT. The decoder and the encoder are inverse to each other (R61 to R66, R69), and what that says of the
bytes a step finds at the pc (R81). -/

namespace Sys2Proof

/-! ### Decoding and encoding -/

theorem decode_encode {om : OpcodeMap} (h : om.injective = true) (i : Instr) (rest : List Byte) :
    decode om (encode om i ++ rest) = .ok (i, rest) :=
  decode_cons_eq_ok_iff.mpr ⟨OpcodeMap.decodeOpcode_byte h i.mnemonic, rfl⟩

/-- Any map will do here: the table is searched for the byte that was read, so what is found encodes to it. -/
theorem eq_encode_of_decode {om : OpcodeMap} {bytes rest : List Byte} {i : Instr}
    (h : decode om bytes = .ok (i, rest)) : bytes = encode om i ++ rest := by
  cases bytes with
  | nil => cases h
  | cons b bs =>
    obtain ⟨hop, rfl⟩ := decode_cons_eq_ok_iff.mp h
    rw [encode, OpcodeMap.byte_of_decodeOpcode hop, List.cons_append]

/-- Settles O5: the opcode byte of an injective map decodes to its mnemonic, which splits the operands off. -/
theorem decodeOfEncode : Obligations.DecodeOfEncode := by
  unfold Obligations.DecodeOfEncode
  intro om i rest h
  exact decode_encode h i rest

/-- Settles O6: `decode_cons_eq_ok_iff` read from left to right. -/
theorem encodeOfDecode : Obligations.EncodeOfDecode := by
  unfold Obligations.EncodeOfDecode
  intro om bytes rest i h
  exact eq_encode_of_decode h

/-- Settles O2: ten of the words are encodings under the default map, and the other three bytes are not among its
opcode bytes. -/
theorem specWordsDecode : Obligations.SpecWordsDecode := by
  unfold Obligations.SpecWordsDecode
  have h : OpcodeMap.standard.injective = true := by decide
  exact ⟨decode_encode h (.load 2 46) [], decode_encode h (.store 3 44) [], decode_encode h (.add 1 2) [],
    decode_encode h (.sub 2 1) [], decode_encode h (.addi 3) [], decode_encode h (.subi 1) [],
    decode_encode h (.jump 255) [], decode_encode h (.beq 1 2 12) [], decode_encode h (.beqz 0) [],
    decode_encode h .halt [], rfl, rfl, rfl⟩

end Sys2Proof

namespace Sys2Proof.Machine

variable {s : State} {i : Instr}

/-! ### The instruction at the pc -/

/-- The first bytes of a slice are the shorter slice. -/
theorem Memory.take_slice_add (m : Memory) (a k j : Nat) : (m.slice a (k + j)).take k = m.slice a k := by
  induction k generalizing a with
  | zero => rfl
  | succ k ih => rw [Nat.succ_add, Memory.slice_succ, Memory.slice_succ, List.take_succ_cons, ih]

/-- Bytes from the pc up that lie in the buffer and decode to an instruction hold it, whatever follows them. -/
theorem State.holds_of_decode_slice {n : Nat} {rest : List Byte} (h0 : 0 ≤ s.instrAddr)
    (hn : s.instrAddr + n ≤ s.memSize)
    (h : decode s.cfg.opcodes (s.mem.slice s.instrAddr.toNat n) = .ok (i, rest)) : s.Holds i := by
  have hbytes := eq_encode_of_decode h
  have hwidth := encode_length s.cfg.opcodes i
  obtain ⟨j, rfl⟩ : ∃ j, n = i.width + j := by
    refine ⟨rest.length, ?_⟩
    rw [← Memory.slice_length s.mem s.instrAddr.toNat n, hbytes, List.length_append, hwidth]
  refine ⟨h0, by omega, ?_⟩
  rw [← Memory.take_slice_add _ _ _ j, hbytes, ← hwidth, List.take_left]

/-- Settles O25: bytes that decode to the instruction hold it, so the second clause is the first. -/
theorem stepRunsDecodedInstruction : Obligations.StepRunsDecodedInstruction := by
  unfold Obligations.StepRunsDecodedInstruction
  exact ⟨fun _ _ hs hi => hs.step_of_holds hi,
    fun _ _ _ _ hs h0 hn h => hs.step_of_holds (State.holds_of_decode_slice h0 hn h)⟩

end Sys2Proof.Machine
end

section
/-! SUPPORT. Everything a step can do, as one relation: it raises an error, or the instruction at the pc completes
in one of four ways. The rules about every step are read off it, one lemma for each part of the state. -/

namespace Sys2Proof

/-- The instruction has `d` as its destination operand (R23). -/
def Instr.Writes (i : Instr) (d : Byte) : Prop :=
  ∃ x, i = .load d x ∨ i = .add d x ∨ i = .sub d x ∨ i = .addi d ∨ i = .subi d

/-- The instruction has `a` as the address it may transfer to (R123). -/
def Instr.Targets (i : Instr) (a : Byte) : Prop :=
  i = .jump a ∨ i = .beqz a ∨ ∃ r q, i = .beq r q a

end Sys2Proof

namespace Sys2Proof.Machine

variable {s t : State} {i : Instr}

/-! ### The inversion of a step -/

/-- `t` is the state in which `i`, executed in `s`, completes. Which value is written and whether a branch is taken
is left open: no rule about every step turns on it. -/
inductive State.Completes (s : State) : Instr → State → Prop where
  | writeReg {i : Instr} (d : Byte) (v : Word) : i.Writes d → s.cfg.validReg d = true →
      s.Completes i (((s.setReg d.toNat v).advance i.width).countStep)
  | store (r a : Byte) : s.cfg.validReg r = true → a.toNat + 2 ≤ s.memSize →
      s.Completes (.store r a) (((s.setMem (s.mem.writeLE a.toNat 2 (s.reg r.toNat).toNat)).advance 3).countStep)
  | transfer {i : Instr} (a : Byte) (taken : Bool) : i.Targets a → ((∃ b, i = .jump b) → taken = true) →
      s.Completes i ((s.transfer taken a i.width).countStep)
  | halt : s.Completes .halt ((s.setStatus .halted).countStep)

/-- `exec_cases` with the errors taken together. -/
theorem exec_raises_or_completes_in (h : exec i s = .next t) : (∃ k, t = s.raise k) ∨ s.Completes i t := by
  rcases exec_cases i s with ⟨r, -, -, he⟩ | ⟨hv, ⟨r, a, -, -, he⟩ | ⟨r, a, rfl, -, he⟩ | ⟨r, a, rfl, ha, he⟩ |
    ⟨d, v, w, hd, rfl, hi, he⟩ | ⟨b, a, w, rfl, hi, he⟩ | ⟨rfl, he⟩⟩
  all_goals
    rw [he] at h
    cases h
  · exact .inl ⟨_, rfl⟩
  · exact .inl ⟨_, rfl⟩
  · exact .inr (.writeReg r _ ⟨a, .inl rfl⟩ (hv r (by simp [Instr.regOperands])))
  · exact .inr (.store r a (hv r (by simp [Instr.regOperands])) ha)
  · refine .inr (.writeReg d v ?_ (hv d ?_))
    · obtain rfl | rfl | ⟨r, rfl | rfl⟩ := hi
      · exact ⟨d, by simp⟩
      · exact ⟨d, by simp⟩
      · exact ⟨r, by simp⟩
      · exact ⟨r, by simp⟩
    · obtain hd | ⟨r, hd⟩ := hd <;> simp [hd]
  · obtain ⟨rfl, rfl⟩ | rfl | ⟨r, q, rfl⟩ := hi
    · exact .inr (.transfer a true (.inl rfl) fun _ => rfl)
    · exact .inr (.transfer a b (.inr (.inl rfl)) (by simp))
    · exact .inr (.transfer a b (.inr (.inr ⟨r, q, rfl⟩)) (by simp))
  · exact .inr .halt

theorem State.ready_of_budgetSpent_eq_false (hl : s.cfg.legal = true) (hr : s.status = .running)
    (hb : s.budgetSpent = false) : s.Ready :=
  ⟨hl, hr, fun l hlim => by
    by_contra hle
    have := State.budgetSpent_iff.mpr ⟨l, hlim, Nat.le_of_not_lt hle⟩
    simp [hb] at this⟩

/-- A step that answers a next state raised an error, or it was due and the instruction at the pc completed. -/
theorem step_raises_or_completes (h : step s = .next t) :
    (∃ k, t = s.raise k) ∨ ∃ i, s.Ready ∧ s.Holds i ∧ s.Completes i t := by
  obtain ⟨hl, hr, ⟨k, -, rfl⟩ | ⟨i, hb, hi, -, he⟩⟩ := step_cases h
  · exact .inl ⟨k, rfl⟩
  · exact (exec_raises_or_completes_in he).imp_right
      fun hc => ⟨i, State.ready_of_budgetSpent_eq_false hl hr hb, hi, hc⟩

/-! ### What a completed instruction does to each part of the state -/

theorem State.Completes.cfg (h : s.Completes i t) : t.cfg = s.cfg := by
  cases h <;> simp

theorem State.Completes.steps (h : s.Completes i t) : t.steps = s.steps + 1 := by
  cases h <;> simp

theorem State.Completes.length_regs (h : s.Completes i t) : t.regs.length = s.regs.length := by
  cases h <;> simp only [State.countStep_regs, State.length_advance, State.length_setReg, State.length_transfer,
    State.setMem_regs, State.setStatus_regs]

/-- HALT alone touches the run status (R130). -/
theorem State.Completes.status (h : s.Completes i t) :
    t.status = s.status ∨ (i = .halt ∧ t.status = .halted) := by
  cases h <;> simp

theorem State.Completes.status_ne_error (h : s.Completes i t) (hr : s.status = .running) (k : ErrorKind)
    (p : Word) : t.status ≠ .error k p := by
  obtain ht | ⟨-, ht⟩ := h.status <;> simp [ht, hr]

/-- The buffer stays in canonical form: a STORE writes inside it. -/
theorem State.Completes.wf_mem (h : s.Completes i t) (hm : s.mem.wf s.memSize = true) :
    t.mem.wf s.memSize = true := by
  cases h with
  | writeReg => exact hm
  | store _ _ _ ha => exact (Memory.writeLE_two_spec _ hm ha).1
  | transfer => simpa using hm
  | halt => exact hm

theorem State.Completes.wf (h : s.Completes i t) (hs : s.WF) : t.WF := by
  refine ⟨?_, ?_, ?_⟩
  · rw [h.cfg]
    exact hs.legal
  · rw [h.cfg, h.length_regs]
    exact hs.regs
  · rw [h.cfg]
    exact h.wf_mem hs.mem

/-- Only a STORE changes a byte, and only the two it writes (R42). -/
theorem State.Completes.store_of_byteAt_ne {b : Nat} (h : s.Completes i t) (hb : t.byteAt b ≠ s.byteAt b) :
    ∃ r a, i = .store r a ∧ s.cfg.validReg r = true ∧ a.toNat + 2 ≤ s.memSize ∧
      (b = a.toNat ∨ b = a.toNat + 1) := by
  cases h with
  | writeReg => exact absurd rfl hb
  | store r a hr ha =>
    refine ⟨r, a, rfl, hr, ha, ?_⟩
    by_contra hout
    push Not at hout
    exact hb (State.byteAt_execStore_ne _ hout.1 hout.2)
  | transfer => simp at hb
  | halt => exact absurd rfl hb

/-- Only a destination operand names a general register that changes (R23). -/
theorem State.Completes.writes_of_reg_ne {q : Nat} (h : s.Completes i t) (hq : q ≠ 0) (hne : t.reg q ≠ s.reg q) :
    ∃ d : Byte, d.toNat = q ∧ s.cfg.validReg d = true ∧ i.Writes d := by
  cases h with
  | writeReg d v hw hv =>
    refine ⟨d, ?_, hv, hw⟩
    by_contra hd
    exact hne (State.reg_destination_ne v _ hq (Ne.symm hd))
  | store => exact absurd (State.reg_advance_ne (s.setMem _) 3 hq) hne
  | transfer a taken => exact absurd (s.reg_transfer_ne taken a _ hq) hne
  | halt => exact absurd rfl hne

/-- An instruction that lies whole in the buffer is followed by an address that is at most N, far from a wrap. -/
theorem State.Holds.pc_add_width (hl : s.cfg.legal = true) (hi : s.Holds i) :
    (s.pc + BitVec.ofNat 16 i.width).toNat = s.pc.toNat + i.width ∧ s.pc.toNat + i.width ≤ 256 := by
  have hhigh := hi.high
  obtain ⟨-, hn, -, -⟩ := Config.legal_bounds hl
  rw [State.instrAddr_eq hi.low, State.memSize] at hhigh
  have hle : s.pc.toNat + i.width ≤ 256 := by omega
  refine ⟨?_, hle⟩
  rw [BitVec.toNat_add, BitVec.toNat_ofNat]
  omega

/-- R82 to R84: where the pc is after an instruction that stands at `p`, under `Fault`. -/
theorem State.Completes.pc_of_fault (h : s.Completes i t) (hs : s.WF) (hm : s.cfg.reg0Mode = .fault)
    (hi : s.Holds i) :
    (i = .halt ∧ t.pc = s.pc) ∨
    (i ≠ .halt ∧ (∀ a, i ≠ .jump a) ∧ t.pc.toNat = s.pc.toNat + i.width) ∨
    (∃ a, t.pc.toNat = a.toNat ∧ i.Targets a) := by
  obtain ⟨hnext, -⟩ := hi.pc_add_width hs.legal
  cases h with
  | writeReg d v hw hv =>
    refine .inr (.inl ⟨?_, ?_, ?_⟩)
    · obtain ⟨x, rfl | rfl | rfl | rfl | rfl⟩ := hw <;> simp
    · obtain ⟨x, rfl | rfl | rfl | rfl | rfl⟩ := hw <;> simp
    · rw [(State.destination v i.width hs hv (Config.ne_zero_of_validReg hm hv)).2, hnext]
  | store =>
    refine .inr (.inl ⟨by simp, by simp, ?_⟩)
    rw [State.pc_advance_setMem _ _ hs]
    exact hnext
  | transfer a taken hw hj =>
    cases taken with
    | true => exact .inr (.inr ⟨a, State.pc_transfer_taken_toNat a _ hs, hw⟩)
    | false =>
      refine .inr (.inl ⟨?_, ?_, ?_⟩)
      · obtain rfl | rfl | ⟨r, q, rfl⟩ := hw <;> simp
      · rintro b rfl
        exact Bool.false_ne_true (hj ⟨b, rfl⟩)
      · rw [State.pc_countStep, State.pc_transfer_not_taken _ _ hs.length_pos, hnext]
  | halt => exact .inl ⟨rfl, rfl⟩

/-! ### The invariant -/

/-- The error record is no part of the invariant. -/
theorem State.Inv.raise (h : s.Inv) (k : ErrorKind) : (s.raise k).Inv :=
  ⟨⟨h.wf.legal, h.wf.regs, h.wf.mem⟩, h.pc, h.budget⟩

/-- Under `Fault` the next pc is at most N = 256 or the value of a byte. -/
theorem State.Completes.pc_le_of_fault (h : s.Completes i t) (hs : s.Inv) (hm : s.cfg.reg0Mode = .fault)
    (hi : s.Holds i) : t.pc.toNat ≤ 259 := by
  obtain ⟨-, hpc⟩ | ⟨-, -, hpc⟩ | ⟨a, hpc, -⟩ := h.pc_of_fault hs.wf hm hi
  · rw [hpc]
    exact hs.pc hm
  · obtain ⟨-, hle⟩ := hi.pc_add_width hs.wf.legal
    omega
  · have := a.isLt
    omega

theorem State.Completes.inv (h : s.Completes i t) (hs : s.Inv) (hr : s.Ready) (hi : s.Holds i) : t.Inv := by
  refine ⟨h.wf hs.wf, ?_, ?_⟩
  · rw [h.cfg]
    exact fun hm => h.pc_le_of_fault hs hm hi
  · rw [h.cfg, h.steps]
    exact hr.budget

/-- Settles O40: an error keeps every part of the invariant, and a completed instruction does by
`State.Completes.inv`. -/
theorem stepKeepsInvariant : Obligations.StepKeepsInvariant := by
  unfold Obligations.StepKeepsInvariant
  intro s t hs h
  obtain ⟨k, rfl⟩ | ⟨i, hr, hi, hc⟩ := step_raises_or_completes h
  · exact ⟨hs.raise k, rfl⟩
  · exact ⟨hc.inv hs hr hi, hc.cfg⟩

/-! ### The rules about every step -/

/-- Settles O41: an error leaves memory alone, and a completed instruction changes it by
`State.Completes.store_of_byteAt_ne` only. -/
theorem onlyStoreWritesMemory : Obligations.OnlyStoreWritesMemory := by
  unfold Obligations.OnlyStoreWritesMemory
  intro s t b h hb
  obtain ⟨k, rfl⟩ | ⟨i, -, hi, hc⟩ := step_raises_or_completes h
  · exact absurd rfl hb
  · obtain ⟨r, a, rfl, hrest⟩ := hc.store_of_byteAt_ne hb
    exact ⟨r, a, hi, hrest⟩

/-- Settles O42: an error leaves the registers alone, and a completed instruction changes a general one by
`State.Completes.writes_of_reg_ne` only. -/
theorem onlyDestinationsChange : Obligations.OnlyDestinationsChange := by
  unfold Obligations.OnlyDestinationsChange
  intro s t q hq h hne
  obtain ⟨k, rfl⟩ | ⟨i, -, hi, hc⟩ := step_raises_or_completes h
  · exact absurd rfl hne
  · obtain ⟨d, hd, hv, x, hw⟩ := hc.writes_of_reg_ne hq hne
    refine ⟨d, x, hd, hv, ?_⟩
    obtain rfl | rfl | rfl | rfl | rfl := hw <;> simp [hi]

/-- Settles O43: a step that does not end in an error completed the instruction at the pc, and
`State.Completes.pc_of_fault` says where. -/
theorem pcMovesByWidthOrTarget : Obligations.PcMovesByWidthOrTarget := by
  unfold Obligations.PcMovesByWidthOrTarget
  intro s t hs hm h hne
  obtain ⟨k, rfl⟩ | ⟨i, -, hi, hc⟩ := step_raises_or_completes h
  · exact absurd rfl (hne k s.pc)
  · exact ⟨i, hi, hc.pc_of_fault hs.wf hm hi⟩

/-- Settles O44: an error is not counted, a completed instruction is, and never ends in an error. -/
theorem stepsCountsCompleted : Obligations.StepsCountsCompleted := by
  unfold Obligations.StepsCountsCompleted
  intro s t h
  obtain ⟨k, rfl⟩ | ⟨i, hr, -, hc⟩ := step_raises_or_completes h
  · exact ⟨fun _ => rfl, fun hne => absurd rfl (hne k s.pc)⟩
  · refine ⟨?_, fun _ => hc.steps⟩
    rintro ⟨k, p, ht⟩
    exact absurd ht (hc.status_ne_error hr.running k p)

end Sys2Proof.Machine
end

section
/-! SUPPORT. Runs: they stop at a final state (R88), end halted at a HALT (R162), end within the step budget, and
without one need not end (R87). -/

namespace Sys2Proof.Machine

variable {s t : State} {a : Byte}

/-! ### Final states -/

theorem State.eq_of_runsTo_of_final {n : Nat} (hl : s.cfg.legal = true) (hs : s.status ≠ .running)
    (h : s.RunsTo n t) : n = 0 ∧ t = s := by
  cases n with
  | zero => exact ⟨rfl, (State.RunsTo_zero.mp h).symm⟩
  | succ n =>
    obtain ⟨u, hu, -⟩ := State.RunsTo_succ.mp h
    rw [step_of_final hl hs] at hu
    cases hu

/-- Settles O33: `step_of_final` for the step, and so no run goes past it. -/
theorem finalStatesHaveNoStep : Obligations.FinalStatesHaveNoStep := by
  unfold Obligations.FinalStatesHaveNoStep
  intro s hl hs
  exact ⟨step_of_final hl hs, fun n t h => State.eq_of_runsTo_of_final hl hs h⟩

theorem step_cfg (h : step s = .next t) : t.cfg = s.cfg := by
  obtain ⟨k, rfl⟩ | ⟨i, -, -, hc⟩ := step_raises_or_completes h
  · rfl
  · exact hc.cfg

/-! ### The end by HALT -/

theorem step_halted (h : step s = .next t) (ht : t.status = .halted) : s.Ready ∧ s.Holds .halt := by
  obtain ⟨k, rfl⟩ | ⟨i, hr, hi, hc⟩ := step_raises_or_completes h
  · cases ht
  · obtain hsame | ⟨rfl, -⟩ := hc.status
    · rw [ht, hr.running] at hsame
      cases hsame
    · exact ⟨hr, hi⟩

/-- The state before the last step of the run is the one with the HALT. -/
theorem State.RunsTo.exists_halt {n : Nat} (hs : s.status = .running) (h : s.RunsTo n t)
    (ht : t.status = .halted) : ∃ k u, s.RunsTo k u ∧ u.Ready ∧ u.Holds .halt := by
  induction n generalizing s with
  | zero =>
    rw [State.RunsTo_zero.mp h, ht] at hs
    cases hs
  | succ n ih =>
    obtain ⟨v, hstep, hrest⟩ := State.RunsTo_succ.mp h
    by_cases hv : v.status = .running
    · obtain ⟨k, u, hu, hready⟩ := ih hv hrest
      exact ⟨k + 1, u, State.RunsTo_succ.mpr ⟨v, hstep, hu⟩, hready⟩
    · obtain ⟨hl, -, -⟩ := step_cases hstep
      obtain ⟨-, rfl⟩ := State.eq_of_runsTo_of_final (by rwa [step_cfg hstep]) hv hrest
      exact ⟨0, s, State.RunsTo_zero.mpr rfl, step_halted hstep ht⟩

/-- Settles O46: `step_halted` for a step, `State.RunsTo.exists_halt` for a run. -/
theorem onlyHaltHalts : Obligations.OnlyHaltHalts := by
  unfold Obligations.OnlyHaltHalts
  refine ⟨fun s t h ht => (step_halted h ht).2, ?_⟩
  rintro s hs ⟨n, t, h, ht⟩
  exact h.exists_halt hs ht

/-! ### The step budget -/

/-- A step of a run with budget left either ends the run in an error or spends one of the budget. -/
theorem State.RunsTo.within_budget {l n : Nat} (hl : s.cfg.legal = true) (hlim : s.cfg.stepLimit = some l)
    (hle : s.steps ≤ l) (h : s.RunsTo n t) :
    n ≤ l - s.steps + 1 ∧ (t.status = .running → t.steps = s.steps + n) := by
  induction n generalizing s with
  | zero =>
    rw [State.RunsTo_zero.mp h]
    exact ⟨Nat.zero_le _, fun _ => rfl⟩
  | succ n ih =>
    obtain ⟨u, hstep, hrest⟩ := State.RunsTo_succ.mp h
    obtain ⟨k, rfl⟩ | ⟨i, hr, -, hc⟩ := step_raises_or_completes hstep
    · obtain ⟨rfl, rfl⟩ := State.eq_of_runsTo_of_final (s := s.raise k) hl (by simp) hrest
      exact ⟨by omega, fun hrun => by simp at hrun⟩
    · have hlt := hr.budget l hlim
      have hsteps := hc.steps
      obtain ⟨hn, hcount⟩ := ih (by rwa [hc.cfg]) (by rwa [hc.cfg]) (by omega) hrest
      refine ⟨by omega, fun hrun => ?_⟩
      rw [hcount hrun]
      omega

theorem State.RunsTo.cfg {n : Nat} (h : s.RunsTo n t) : t.cfg = s.cfg :=
  State.RunsTo.induct (P := fun u => u.cfg = s.cfg) (fun _ _ hu hstep => (step_cfg hstep).trans hu) rfl h

theorem step_of_limit_reached {l : Nat} (hl : s.cfg.legal = true) (hr : s.status = .running)
    (hlim : s.cfg.stepLimit = some l) (hle : l ≤ s.steps) : step s = .next (s.raise .stepLimitExceeded) :=
  step_of_fetch_error hl hr (State.fetch_of_budgetSpent (State.budgetSpent_iff.mpr ⟨l, hlim, hle⟩))

/-- Settles O47: `State.RunsTo.within_budget` for the count; with the budget spent the next step raises. -/
theorem stepLimitEndsEveryRun : Obligations.StepLimitEndsEveryRun := by
  unfold Obligations.StepLimitEndsEveryRun
  intro s t l n hl hlim hle h
  obtain ⟨hn, hcount⟩ := h.within_budget hl hlim hle
  refine ⟨hn, hcount, fun hrun hspent => ⟨_, step_of_limit_reached ?_ hrun (l := l) ?_ ?_, rfl⟩⟩
  · rwa [h.cfg]
  · rwa [h.cfg]
  · rw [hcount hrun]
    omega

/-! ### A run without end -/

/-- Writing to the pc the value it has changes nothing. -/
theorem State.setPc_eq_self {v : Word} (h : s.pc = v) : s.setPc v = s := by
  subst h
  obtain ⟨c, regs, m, st, n⟩ := s
  cases regs <;> rfl

theorem step_selfJump (hr : s.Ready) (hi : s.Holds (.jump a)) (hpc : s.pc.toNat = a.toNat) :
    step s = .next s.countStep := by
  have htarget : s.pc = targetPc a := BitVec.eq_of_toNat_eq (by rw [hpc, targetPc_toNat])
  rw [hr.step_of_holds hi, execJump_ok, State.transfer, if_pos rfl, State.setPc_eq_self htarget]

/-- Settles O48: without a limit a step is always due, and by `step_selfJump` it only counts. -/
theorem selfJumpRunsForever : Obligations.SelfJumpRunsForever := by
  unfold Obligations.SelfJumpRunsForever
  intro s a hs hr hlim hi hpc n
  induction n generalizing s with
  | zero => exact State.RunsTo_zero.mpr rfl
  | succ n ih =>
    have hready : s.Ready := ⟨hs.legal, hr, fun l hl => by simp [hlim] at hl⟩
    refine State.RunsTo_succ.mpr ⟨s.countStep, step_selfJump hready hi hpc, ?_⟩
    have hrest := ih s.countStep ⟨hs.legal, hs.regs, hs.mem⟩ hr hlim ⟨hi.low, hi.high, hi.bytes⟩ hpc
    rwa [State.countStep_steps, Nat.add_right_comm] at hrest

end Sys2Proof.Machine
end

section
/-! SUPPORT. What the instructions after a STORE see of it: a LOAD that overlaps it (R47) and the fetch of the
bytes it wrote (R56). -/

namespace Sys2Proof.Machine

variable {s : State}

/-! ### LOAD after STORE -/

theorem State.toNat_reg_execLoad {q : Byte} (b : Nat) (h : s.WF) (hq : s.cfg.validReg q = true)
    (hq0 : q.toNat ≠ 0) :
    ((((s.setReg q.toNat (BitVec.ofNat 16 (s.mem.readLE b 2))).advance 3).countStep).reg q.toNat).toNat =
      (s.byteAt b).toNat + 256 * (s.byteAt (b + 1)).toNat := by
  rw [(State.destination _ 3 h hq hq0).1, Memory.ofNat_readLE_two_toNat, Memory.readLE_two, State.byteAt,
    State.byteAt]

/-- Settles O10: the LOAD reads its two bytes of the buffer that the STORE left, each of which is a byte stored
(`State.byteAt_execStore`) or one of before (`State.byteAt_execStore_ne`). -/
theorem loadSeesOverlappingStore : Obligations.LoadSeesOverlappingStore := by
  unfold Obligations.LoadSeesOverlappingStore
  intro s r q a b hs hr hq hq0 ha hb
  obtain ⟨hlo, hhi⟩ := State.byteAt_execStore (s.reg r.toNat) hs ha
  have hne := fun c => State.byteAt_execStore_ne (s := s) (a := a.toNat) (b := c) (s.reg r.toNat)
  have ht := (State.Completes.store r a hr ha).wf hs
  refine ⟨_, _, execStore_ok hr ha, execLoad_ok hq hb, ?_⟩
  have hload := State.toNat_reg_execLoad b.toNat ht hq hq0
  refine ⟨fun hba => BitVec.eq_of_toNat_eq ?_, fun hba => ?_, fun hba => ?_, fun hba => ?_⟩
  · rw [hload, hba, hlo, hhi]
    omega
  · rw [hload, hba, hhi, hne _ (by omega) (by omega)]
  · rw [hload, hba, hlo, hne _ (by omega) (by omega)]
  · rw [hload, hne _ (by omega) (by omega), hne _ (by omega) (by omega)]

/-! ### The fetch after STORE -/

/-- A byte of HALT at the pc is a whole instruction. -/
theorem State.holds_halt {p : Nat} (hp : s.instrAddr = p) (h : p < s.memSize)
    (hb : s.byteAt p = s.cfg.opcodes.halt) : s.Holds .halt := by
  refine ⟨by omega, ?_, ?_⟩
  · rw [hp]
    exact_mod_cast h
  · rw [hp]
    exact congrArg (fun b => [b]) hb

/-- R149: a due step answers a next state, an error or not. -/
theorem State.Ready.exists_next (hs : s.Ready) : ∃ t, step s = .next t := by
  obtain ⟨k, -, hk⟩ | ⟨-, t, ht, -⟩ := step_of_firstFailure hs.legal hs.running
  · exact ⟨_, hk⟩
  · exact ⟨t, ht⟩

/-- Settles O35: after the STORE a step is due, and the byte at its pc is the low byte stored. -/
theorem storeSeenByNextFetch : Obligations.StoreSeenByNextFetch := by
  unfold Obligations.StoreSeenByNextFetch
  intro s r a hs hr hi hv ha hnext hlim
  have hstep := (hr.step_of_holds hi).trans (execStore_ok hv ha)
  obtain ⟨hlo, -⟩ := State.byteAt_execStore (s.reg r.toNat) hs ha
  obtain ⟨-, hdone⟩ := State.advance_setMem_frame (s := s) (s.mem.writeLE a.toNat 2 (s.reg r.toNat).toNat) 3
  have hpc := State.pc_advance_setMem (s.mem.writeLE a.toNat 2 (s.reg r.toNat).toNat) 3 hs
  generalize ((s.setMem (s.mem.writeLE a.toNat 2 (s.reg r.toNat).toNat)).advance 3).countStep = t
    at hstep hlo hdone hpc
  have hrt : t.Ready := hr.of_completed hdone hlim
  have hcfg : t.cfg = s.cfg := hdone.cfg
  have hpca : t.pc.toNat = a.toNat := by
    obtain ⟨hwrap, -⟩ := hi.pc_add_width hs.legal
    rw [hpc, hnext]
    exact hwrap
  have hp : t.instrAddr = a.toNat := by
    rw [State.instrAddr_of_pc_lt (by omega), hpca]
  have hin : a.toNat < t.memSize := by
    rw [State.memSize, hcfg]
    exact Nat.lt_of_lt_of_le (by omega) ha
  have hbyte : t.byteAt a.toNat = BitVec.ofNat 8 ((s.reg r.toNat).toNat % 256) :=
    BitVec.eq_of_toNat_eq (by rw [hlo, BitVec.toNat_ofNat]; omega)
  obtain ⟨u, hu⟩ := hrt.exists_next
  refine ⟨t, u, hstep, hpca, hu, fun hhalt => ?_, fun hnone => ?_⟩
  · have hh : t.Holds .halt := by
      refine State.holds_halt hp hin ?_
      rw [hbyte, hhalt, hcfg, BitVec.ofNat_toNat, BitVec.setWidth_eq]
    rw [hrt.step_of_holds hh, execHalt_ok] at hu
    cases hu
    rfl
  · rw [hrt.step_of_unknownOpcode hp hin (by rw [hcfg, hbyte, hnone])] at hu
    cases hu
    rfl

end Sys2Proof.Machine
end

section
/-! SUPPORT. The start of a run meets the invariant and holds the host's buffer (R37, R160, R163), and what the host
reads after an error (R31 to R33). -/

namespace Sys2Proof.Machine

variable {s : State} {k : ErrorKind} {p : Word}

/-! ### The invariant at the start of a run -/

theorem State.inv_startRun {c : Config} {mem : Memory} (hl : c.legal = true) (hm : mem.wf c.memSize = true) :
    (State.startRun c mem).Inv :=
  ⟨⟨hl, State.length_startRun c mem, hm⟩, fun _ => by simp, fun _ _ => Nat.zero_le _⟩

/-- Settles O39: `State.inv_startRun`, also for the default configuration and the zero buffer. -/
theorem invariantHoldsAtReset : Obligations.InvariantHoldsAtReset := by
  unfold Obligations.InvariantHoldsAtReset
  exact ⟨fun _ _ hl hm => State.inv_startRun hl hm, State.inv_startRun (by decide) rfl⟩

/-! ### The host's buffer -/

theorem Memory.wf_ofBytes (bs : List Byte) : (Memory.ofBytes bs).wf bs.length = true :=
  Memory.wf_putBytes 0 bs rfl

theorem Memory.read_ofBytes {bs : List Byte} {a : Nat} {b : Byte} (h : bs[a]? = some b) :
    (Memory.ofBytes bs).read a = b := by
  obtain ⟨ha, -⟩ := List.getElem?_eq_some_iff.mp h
  have hread := Memory.read_putBytes (n := bs.length) (m := []) (a := 0) rfl h (by omega)
  rwa [Nat.zero_add] at hread

/-- Settles O38: the length is tested before the run starts; the bytes are written in canonical form and read
back. -/
theorem bufferHandedOver : Obligations.BufferHandedOver := by
  unfold Obligations.BufferHandedOver
  intro c buffer hl
  refine ⟨fun hne => if_neg fun h => hne h.2, fun heq => ?_⟩
  refine ⟨State.startRun c (Memory.ofBytes buffer), if_pos ⟨hl, heq⟩, State.inv_startRun hl ?_, rfl, rfl,
    fun a b h => Memory.read_ofBytes h⟩
  rw [← heq]
  exact Memory.wf_ofBytes buffer

/-! ### The result registers after an error -/

theorem State.statusReg_of_error (h : s.status = .error k p) : s.statusReg = 2 := by
  rw [State.statusReg, h]

theorem State.errKindReg_of_error (h : s.status = .error k p) : s.errKindReg = k.code := by
  rw [State.errKindReg, h]

theorem State.errPcReg_of_error (h : s.status = .error k p) : s.errPcReg = p := by
  rw [State.errPcReg, h]

theorem ErrorKind.code_bounds (k : ErrorKind) : 1 ≤ k.code.toNat ∧ k.code.toNat ≤ 4 := by
  cases k <;> decide

/-- Settles O32: a raised error is an `Error` status, whose registers the lemmas above give; STATUS reads 2 in no
other status. -/
theorem errorRecordReadByHost : Obligations.ErrorRecordReadByHost := by
  unfold Obligations.ErrorRecordReadByHost
  refine ⟨fun s k => ?_, ⟨rfl, rfl, rfl, rfl⟩, fun s => ?_⟩
  · have h := s.raise_status k
    exact ⟨State.statusReg_of_error h, State.errPcReg_of_error h, State.errKindReg_of_error h⟩
  · cases h : s.status with
    | running =>
      rw [State.statusReg_of_running h]
      exact ⟨by decide, fun h2 => absurd h2 (by decide)⟩
    | halted =>
      rw [State.statusReg_of_halted h]
      exact ⟨by decide, fun h2 => absurd h2 (by decide)⟩
    | error k p =>
      rw [State.statusReg_of_error h, State.errKindReg_of_error h]
      exact ⟨by decide, fun _ => k.code_bounds⟩

end Sys2Proof.Machine
end

section
/-! SUPPORT. No instruction reads the run status or the step count (R30, R36): executing it from two states that
differ in these alone has the same effect on registers and memory. -/

namespace Sys2Proof.Machine

variable {s : State} {st : RunStatus} {n : Nat}

/-- `s` with another run status and step count. -/
def State.withRun (s : State) (st : RunStatus) (n : Nat) : State := { s with status := st, steps := n }

/-- What one operation answers from `s` and from `s'`: the same error, or states with the same registers and memory
in which it has not yet been counted. -/
inductive State.SameResult (s s' : State) : Except ErrorKind State → Except ErrorKind State → Prop where
  | error (k : ErrorKind) : s.SameResult s' (.error k) (.error k)
  | ok {t u : State} : u.regs = t.regs → u.mem = t.mem → t.steps = s.steps → u.steps = s'.steps →
      s.SameResult s' (.ok t) (.ok u)

/-- The same of an outcome: next states with the same registers and memory, and the same increase of the count. -/
def State.SameEffect (s s' : State) (o o' : Host.Outcome State Fault Refusal) : Prop :=
  ∃ t u, o = .next t ∧ o' = .next u ∧ u.regs = t.regs ∧ u.mem = t.mem ∧ u.steps - s'.steps = t.steps - s.steps

/-- Raising and counting keep the agreement, so it is enough that the operation has it. -/
theorem State.finish_sameEffect {r r' : Except ErrorKind State} (h : s.SameResult (s.withRun st n) r r') :
    s.SameEffect (s.withRun st n) (s.finish r) ((s.withRun st n).finish r') := by
  cases h with
  | error k => exact ⟨_, _, rfl, rfl, rfl, rfl, by simp⟩
  | ok hregs hmem ht hu => exact ⟨_, _, rfl, rfl, hregs, hmem, by simp [ht, hu]⟩

/-- The operand check reads the configuration alone. -/
theorem State.execute_sameEffect (rs : List Byte) {op : State → Except ErrorKind State}
    (h : s.SameResult (s.withRun st n) (op s) (op (s.withRun st n))) :
    s.SameEffect (s.withRun st n) (s.execute rs op) ((s.withRun st n).execute rs op) := by
  by_cases hv : ∀ r ∈ rs, s.cfg.validReg r = true
  · rw [State.execute_valid hv, State.execute_valid (s := s.withRun st n) hv]
    exact State.finish_sameEffect h
  · push Not at hv
    obtain ⟨r, hr, hf⟩ := hv
    have hf : s.cfg.validReg r = false := by simpa using hf
    rw [State.execute_invalid hr hf, State.execute_invalid (s := s.withRun st n) hr hf]
    exact State.finish_sameEffect (.error .invalidRegisterIndex)

theorem State.transfer_sameResult (b : Bool) (a : Byte) (w : Nat) :
    s.SameResult (s.withRun st n) (.ok (s.transfer b a w)) (.ok ((s.withRun st n).transfer b a w)) := by
  cases b <;> exact .ok rfl rfl rfl rfl

/-- LOAD and STORE test the address, which both states do alike; the other operations cannot fail. -/
theorem exec_sameEffect (i : Instr) :
    s.SameEffect (s.withRun st n) (exec i s) (exec i (s.withRun st n)) := by
  cases i <;> simp only [exec, execLoad, execStore, execAdd, execSub, execAddi, execSubi, execJump, execBeq,
    execBeqz, execHalt] <;> refine State.execute_sameEffect _ ?_
  case load r a =>
    rw [show (s.withRun st n).memRead (effAddr a) 2 = s.memRead (effAddr a) 2 from rfl]
    cases s.memRead (effAddr a) 2 with
    | error k => exact .error k
    | ok v => exact .ok rfl rfl rfl rfl
  case store r a =>
    by_cases ha : a.toNat + 2 ≤ s.memSize
    · rw [effAddr, State.memWrite_ok _ ha, State.memWrite_ok (s := s.withRun st n) _ ha]
      exact .ok rfl rfl rfl rfl
    · have hout : (a.toNat : Int) < 0 ∨ (a.toNat : Int) + (2 : Nat) > s.memSize := by omega
      rw [effAddr, State.memWrite_error _ hout, State.memWrite_error (s := s.withRun st n) _ hout]
      exact .error .outOfBoundsAccess
  case jump | beq | beqz => exact State.transfer_sameResult _ _ _
  case add | sub | addi | subi | halt => exact .ok rfl rfl rfl rfl

/-- Settles O45: `exec_sameEffect`, read register by register and byte by byte. -/
theorem statusAndStepsUnreadable : Obligations.StatusAndStepsUnreadable := by
  unfold Obligations.StatusAndStepsUnreadable
  intro i s st n
  obtain ⟨t, u, ht, hu, hregs, hmem, hsteps⟩ := exec_sameEffect (s := s) (st := st) (n := n) i
  refine ⟨t, u, ht, hu, fun q => ?_, fun a => ?_, hsteps⟩
  · rw [State.reg, hregs, State.reg]
  · rw [State.byteAt, hmem, State.byteAt]

end Sys2Proof.Machine
end
